-- ==== Sys2Proof/Word.lean ====
section
/-! DEFINITION. The byte, the register names and the interrupt-line numbers of the CA1 core (spec/00_scope.md R8,
spec/10_state.md R20, R23, spec/60_exceptions.md R171). -/

namespace Sys2Proof

/-- An unsigned 8-bit value: every register, memory cell, immediate and address of the core (00_scope.md R8). -/
abbrev Byte := BitVec 8

/-- `v mod 256`: how an exact integer result is stored into a byte (10_state.md R22). -/
def narrow (v : Int) : Byte := BitVec.ofInt 8 v

/-- The eight general registers, indices 0 to 7 (10_state.md R20). -/
inductive Reg where
  | r0 | r1 | r2 | r3 | r4 | r5 | r6 | r7
  deriving DecidableEq, Repr

/-- Increasing index order, the order in which delivery pushes them (60_exceptions.md R174). -/
def Reg.all : List Reg := [.r0, .r1, .r2, .r3, .r4, .r5, .r6, .r7]

/-- The Interrupt Mask, register 5 (10_state.md R23, R28). -/
abbrev Reg.im : Reg := .r5

/-- The Interrupt Status, register 6 (10_state.md R23, R29). -/
abbrev Reg.is : Reg := .r6

/-- The Stack Pointer, register 7 (10_state.md R23, R30). -/
abbrev Reg.sp : Reg := .r7

/-- An interrupt line, 0 to 7; line `i` is bit `i` of IM and IS (60_exceptions.md R171). -/
abbrev Line := Fin 8

/-- All lines in the order the controller scans them (60_exceptions.md R173). -/
def Line.all : List Line := [0, 1, 2, 3, 4, 5, 6, 7]

end Sys2Proof
end

