-- ==== Sys2Proof/Config.lean ====
section
/-! DEFINITION. What the spec leaves to a configuration: the opcode map OPC (30_encoding.md R76) and the reset
parameters REG_INIT, IR_INIT, OVF_INIT and MEM_INIT (70_reset_and_hazards.md R200). -/

namespace Sys2Proof

/-- The fourteen instruction names (00_scope.md R2), in the order of spec/opcode_table.json. -/
inductive Mnemonic where
  | hlt | ldi | mul | add | prn | pra | push | pop | call | ret | jmp | st | ld | iret
  deriving DecidableEq, Repr

/-- Every mnemonic once. -/
def Mnemonic.all : List Mnemonic :=
  [.hlt, .ldi, .mul, .add, .prn, .pra, .push, .pop, .call, .ret, .jmp, .st, .ld, .iret]

/-- The OPEN parameter `OPC : Mnemonic → Byte` (30_encoding.md R76). The decoder, the encoder and the tick take it as
an argument; `Sys2Proof.opcDefault` (Decode.lean) is the instance the fixed names use. -/
abbrev OpcodeMap := Mnemonic → Byte

/-- The OPEN reset parameters (70_reset_and_hazards.md R200), one field for each value the spec does not state. -/
structure ResetParams where
  /-- `REG_INIT[0]` (10_state.md R27). -/
  r0 : Byte
  /-- `REG_INIT[1]` (10_state.md R27). -/
  r1 : Byte
  /-- `REG_INIT[2]` (10_state.md R27). -/
  r2 : Byte
  /-- `REG_INIT[3]` (10_state.md R27). -/
  r3 : Byte
  /-- `REG_INIT[4]` (10_state.md R27). -/
  r4 : Byte
  /-- `REG_INIT[5]`, the reset value of IM (10_state.md R28). -/
  im : Byte
  /-- `REG_INIT[6]`, the reset value of IS (10_state.md R29). -/
  is : Byte
  /-- `IR_INIT` (10_state.md R34). -/
  ir : Byte
  /-- `OVF_INIT` (10_state.md R36). -/
  overflow : Bool
  /-- `MEM_INIT` (20_memory.md R58), in the canonical form of `Machine.Memory`. -/
  mem : List Host.Cell
  deriving DecidableEq, Repr

namespace Config

/-- What a memory address with no entry in the list reads as. DESIGN CHOICE, unsafe (log entry 4): the spec leaves
`MEM_INIT` open (20_memory.md R58). -/
def unlistedByte : Byte := 0

/-- The parameters `Machine.State.reset` takes: all zero. DESIGN CHOICE, unsafe (log entries 2, 3, 4): the spec states
none of them; its test vectors take these values as their own premise (95_test_vectors.md, S0). -/
def resetParams : ResetParams :=
  { r0 := 0, r1 := 0, r2 := 0, r3 := 0, r4 := 0, im := 0, is := 0, ir := 0, overflow := false, mem := [] }

end Config
end Sys2Proof
end

