-- ==== Sys2Proof/Syntax.lean ====
section
/-! DEFINITION. The instruction set: one constructor per row of spec/opcode_table.json, operands in the order of the
assembler form (30_encoding.md R72, R81). A register operand is a register by type: a byte above 7 names none, and the
decoder rejects it (30_encoding.md R74). -/

namespace Sys2Proof

/-- The fourteen instructions of the core (00_scope.md R2). -/
inductive Instr where
  /-- Stop the machine (44_control.md R150). -/
  | hlt
  /-- `R[d] <- imm` (42_load_store.md R120). -/
  | ldi (d : Reg) (imm : Byte)
  /-- `R[a] <- R[a] * R[b]` (41_alu.md R112). -/
  | mul (a b : Reg)
  /-- `R[a] <- R[a] + R[b]` (41_alu.md R111). -/
  | add (a b : Reg)
  /-- Print a register in decimal (45_output.md R161). -/
  | prn (a : Reg)
  /-- Print a register as a character (45_output.md R162). -/
  | pra (a : Reg)
  /-- Push a register (43_stack.md R130). -/
  | push (a : Reg)
  /-- Pop into a register (43_stack.md R131). -/
  | pop (d : Reg)
  /-- Call the subroutine at the address in a register (44_control.md R141). -/
  | call (a : Reg)
  /-- Return from a subroutine (44_control.md R142). -/
  | ret
  /-- Jump to the address in a register (44_control.md R140). -/
  | jmp (a : Reg)
  /-- `mem[R[a]] <- R[b]` (42_load_store.md R122). -/
  | st (a b : Reg)
  /-- `R[d] <- mem[R[b]]` (42_load_store.md R121). -/
  | ld (d b : Reg)
  /-- Return from an interrupt (44_control.md R146). -/
  | iret
  deriving DecidableEq, Repr

/-- The row of the opcode table an instruction belongs to. -/
def Instr.mnemonic : Instr → Mnemonic
  | .hlt => .hlt
  | .ldi _ _ => .ldi
  | .mul _ _ => .mul
  | .add _ _ => .add
  | .prn _ => .prn
  | .pra _ => .pra
  | .push _ => .push
  | .pop _ => .pop
  | .call _ => .call
  | .ret => .ret
  | .jmp _ => .jmp
  | .st _ _ => .st
  | .ld _ _ => .ld
  | .iret => .iret

end Sys2Proof
end

