-- ==== Sys2Proof/WellFormed.lean ====
section
/-! DEFINITION. What a well-formed opcode map and a well-formed instruction in bytes are, said from the tables of
30_encoding.md and apart from the decoder. An `Instr` needs no check of its own: its register operands are registers
by type. -/

namespace Sys2Proof

/-- The constraints the source puts on the opcode map: one instruction per byte, and 0xFF unmapped
(30_encoding.md R76, points 1 and 2; points 3 and 4 follow). -/
abbrev OpcodeMap.Admissible (opc : OpcodeMap) : Prop :=
  (∀ m n : Mnemonic, opc m = opc n → m = n) ∧ ∀ m : Mnemonic, opc m ≠ 0xFF

/-- What an operand byte is read as (30_encoding.md R74, R75). -/
inductive OperandKind where
  | register
  | immediate
  deriving DecidableEq, Repr

/-- The operand bytes of each instruction in address order: formats F0, F1, F2R and F2I (30_encoding.md R71, R72). -/
def Mnemonic.operandKinds : Mnemonic → List OperandKind
  | .hlt | .ret | .iret => []
  | .prn | .pra | .push | .pop | .call | .jmp => [.register]
  | .mul | .add | .st | .ld => [.register, .register]
  | .ldi => [.register, .immediate]

/-- A register byte is 0 to 7; an immediate is any byte (30_encoding.md R74, R75, R79). -/
def OperandKind.admits : OperandKind → Byte → Bool
  | .register, b => b.toNat ≤ 7
  | .immediate, _ => true

/-- There are as many operand bytes as the format has, and each is one its kind admits. -/
def operandsWellFormed : List OperandKind → List Byte → Bool
  | [], [] => true
  | k :: ks, b :: bs => k.admits b && operandsWellFormed ks bs
  | _, _ => false

/-- The bytes are exactly one instruction: a mapped opcode, then its operand bytes (30_encoding.md R70 to R80). -/
def bytesWellFormed (opc : OpcodeMap) : List Byte → Bool
  | [] => false
  | op :: operands => Mnemonic.all.any fun m => opc m == op && operandsWellFormed m.operandKinds operands

end Sys2Proof
end

