-- ==== Sys2Proof/Decode.lean ====
section
/-! DEFINITION. Decoding, total on any bytes and rejecting by name, and after it the encoder, both written from the
tables of spec/30_encoding.md and both for any opcode map. -/

namespace Sys2Proof

/-- The default opcode map (30_encoding.md R77, spec/opcode_table.json). PRESUMED, unsafe (log entry 1): the spec
itself marks these bytes as general knowledge, not in the source. -/
def opcDefault : OpcodeMap
  | .hlt => 0x1B
  | .ldi => 0x99
  | .mul => 0xAA
  | .add => 0xA8
  | .prn => 0x43
  | .pra => 0x42
  | .push => 0x4D
  | .pop => 0x4C
  | .call => 0x48
  | .ret => 0x09
  | .jmp => 0x50
  | .st => 0x9A
  | .ld => 0x98
  | .iret => 0x0B

/-- Why bytes are no instruction. `Machine.DecodeError.haltReason` turns each into the fault the spec names. -/
inductive DecodeError where
  /-- The opcode byte is bound to no instruction (30_encoding.md R78). -/
  | unmappedOpcode (opcode : Byte)
  /-- A register operand byte above 7 (30_encoding.md R74). -/
  | badRegister (index : Byte)
  /-- There is no byte at this offset from the opcode (20_memory.md R52: the address would be above 255). -/
  | missingByte (offset : Nat)
  deriving DecidableEq, Repr

/-- The dispatch table: entry `b` is the mnemonic bound to `b`, if any (30_encoding.md R76, 40_cycle.md R94). -/
def dispatch (opc : OpcodeMap) (b : Byte) : Option Mnemonic :=
  Mnemonic.all.find? fun m => opc m == b

/-- The register an operand byte names: the whole byte is the index, and 8 to 255 name none (30_encoding.md R74). -/
def Reg.ofByte? (b : Byte) : Option Reg := Reg.all[b.toNat]?

/-- The index byte of a register (30_encoding.md R74). -/
def Reg.toByte : Reg → Byte
  | .r0 => 0
  | .r1 => 1
  | .r2 => 2
  | .r3 => 3
  | .r4 => 4
  | .r5 => 5
  | .r6 => 6
  | .r7 => 7

/-- The operand byte at offset `j` from the opcode, and the bytes after it. -/
def takeByte (j : Nat) : List Byte → Except DecodeError (Byte × List Byte)
  | [] => .error (.missingByte j)
  | b :: bs => .ok (b, bs)

/-- A register operand at offset `j`: first there must be a byte, then it must name a register (40_cycle.md R96). -/
def takeReg (j : Nat) (bs : List Byte) : Except DecodeError (Reg × List Byte) := do
  let (b, bs) ← takeByte j bs
  match Reg.ofByte? b with
  | none => .error (.badRegister b)
  | some r => .ok (r, bs)

/-- Format F1: one register operand (30_encoding.md R72). -/
def takeF1 (build : Reg → Instr) (bs : List Byte) : Except DecodeError (Instr × List Byte) := do
  let (r, bs) ← takeReg 1 bs
  .ok (build r, bs)

/-- Format F2R: two register operands, the first in the lower address (30_encoding.md R72). -/
def takeF2R (build : Reg → Reg → Instr) (bs : List Byte) : Except DecodeError (Instr × List Byte) := do
  let (a, bs) ← takeReg 1 bs
  let (b, bs) ← takeReg 2 bs
  .ok (build a b, bs)

/-- Format F2I: a register operand, then a literal byte used as it is (30_encoding.md R72, R75). -/
def takeF2I (build : Reg → Byte → Instr) (bs : List Byte) : Except DecodeError (Instr × List Byte) := do
  let (d, bs) ← takeReg 1 bs
  let (imm, bs) ← takeByte 2 bs
  .ok (build d imm, bs)

/-- The operands of the dispatched instruction, in its format (30_encoding.md R71, R72). -/
def decodeOperands : Mnemonic → List Byte → Except DecodeError (Instr × List Byte)
  | .hlt, bs => .ok (.hlt, bs)
  | .ldi, bs => takeF2I .ldi bs
  | .mul, bs => takeF2R .mul bs
  | .add, bs => takeF2R .add bs
  | .prn, bs => takeF1 .prn bs
  | .pra, bs => takeF1 .pra bs
  | .push, bs => takeF1 .push bs
  | .pop, bs => takeF1 .pop bs
  | .call, bs => takeF1 .call bs
  | .ret, bs => .ok (.ret, bs)
  | .jmp, bs => takeF1 .jmp bs
  | .st, bs => takeF2R .st bs
  | .ld, bs => takeF2R .ld bs
  | .iret, bs => .ok (.iret, bs)

/-- The instruction at the head of the bytes and what follows it, or why there is none. The opcode is checked first,
then each operand in address order, its presence before its value (40_cycle.md R95, R96, R101). -/
def decodeWith (opc : OpcodeMap) : List Byte → Except DecodeError (Instr × List Byte)
  | [] => .error (.missingByte 0)
  | op :: bs =>
    match dispatch opc op with
    | none => .error (.unmappedOpcode op)
    | some m => decodeOperands m bs

/-- Decoding under the default opcode map. -/
def decode (bs : List Byte) : Except DecodeError (Instr × List Byte) := decodeWith opcDefault bs

/-- Byte count, opcode included, of an opcode's instruction (30_encoding.md R71, R80). -/
def Mnemonic.width : Mnemonic → Nat
  | .hlt | .ret | .iret => 1
  | .prn | .pra | .push | .pop | .call | .jmp => 2
  | .ldi | .mul | .add | .st | .ld => 3

/-- Byte count of an instruction (30_encoding.md R71). -/
def Instr.width (i : Instr) : Nat := i.mnemonic.width

/-- The operand bytes of an instruction, in increasing address order (30_encoding.md R72, R73). -/
def Instr.operandBytes : Instr → List Byte
  | .hlt => []
  | .ldi d imm => [d.toByte, imm]
  | .mul a b => [a.toByte, b.toByte]
  | .add a b => [a.toByte, b.toByte]
  | .prn a => [a.toByte]
  | .pra a => [a.toByte]
  | .push a => [a.toByte]
  | .pop d => [d.toByte]
  | .call a => [a.toByte]
  | .ret => []
  | .jmp a => [a.toByte]
  | .st a b => [a.toByte, b.toByte]
  | .ld d b => [d.toByte, b.toByte]
  | .iret => []

/-- The bytes of an instruction: its opcode, then its operand bytes (30_encoding.md R72, R73). -/
def encodeWith (opc : OpcodeMap) (i : Instr) : List Byte := opc i.mnemonic :: i.operandBytes

/-- Encoding under the default opcode map. -/
def encode (i : Instr) : List Byte := encodeWith opcDefault i

/-- The first `n` bytes of a table word, the least significant (the opcode) first (30_encoding.md R73). -/
def wordBytes : Nat → Nat → List Byte
  | 0, _ => []
  | n + 1, w => BitVec.ofNat 8 w :: wordBytes n (w / 256)

/-- The three bytes in which any instruction fits, of a word of which `nbits` bits are given and the rest are zero. -/
def tableBytes (nbits w : Nat) : List Byte := wordBytes 3 (w % 2 ^ nbits)

/-- The instruction the decoder reads from a word whose bits are numbered as spec/opcode_table.json numbers them. -/
def decodeTableWord (nbits w : Nat) : Option Instr :=
  match decode (tableBytes nbits w) with
  | .ok (i, _) => some i
  | .error _ => none

end Sys2Proof
end

