-- ==== Sys2Proof/Machine/State.lean ====
section
/-! DEFINITION. The machine's state as plain data (spec/10_state.md, spec/20_memory.md R50), the state after reset
(spec/70_reset_and_hazards.md R200), and the reasons an outcome can be no next state. -/

namespace Sys2Proof.Machine

/-- The register file: eight bytes (10_state.md R20). Read and written only through `RegFile.get` and `RegFile.set`. -/
structure RegFile where
  r0 : Byte
  r1 : Byte
  r2 : Byte
  r3 : Byte
  r4 : Byte
  r5 : Byte
  r6 : Byte
  r7 : Byte
  deriving DecidableEq, Repr

/-- Memory as the list of its cells that do not read as `Config.unlistedByte` (20_memory.md R50). -/
abbrev Memory := List Host.Cell

/-- The canonical form: addresses strictly rising and below 256, no cell listed that reads as an unlisted one. -/
abbrev Memory.wf (m : Memory) : Prop :=
  m.Pairwise (fun c d => c.1 < d.1) ∧ ∀ c ∈ m, c.1 < 256 ∧ c.2 ≠ Config.unlistedByte

/-- An event on the output port (45_output.md R160). -/
inductive OutEvent where
  /-- `Dec(v)`, from PRN. -/
  | dec (v : Byte)
  /-- `Chr(v)`, from PRA. -/
  | chr (v : Byte)
  deriving DecidableEq, Repr

/-- Why the machine is Halted: the report the host reads (60_exceptions.md R170). -/
inductive HaltReason where
  /-- HLT: a normal end (44_control.md R150). -/
  | hlt
  /-- The byte `opcode` fetched at `address` is bound to no instruction (40_cycle.md R95). -/
  | invalidOpcode (address : Nat) (opcode : Byte)
  /-- The instruction `opcode` at `address` has the register operand byte `index` above 7 (40_cycle.md R96). -/
  | invalidRegister (address : Nat) (opcode index : Byte)
  /-- An access or a return address above 255 (20_memory.md R52, 40_cycle.md R91, 44_control.md R141). -/
  | addressOutOfRange (address : Nat)
  deriving DecidableEq, Repr

/-- Running, or Halted with a reason; Halted is terminal (10_state.md R38). -/
inductive RunState where
  | running
  | halted (reason : HaltReason)
  deriving DecidableEq, Repr

/-- Everything the spec gives the machine (10_state.md, section 1), and `clockStarted`. -/
structure State where
  /-- R0 to R7, among them IM, IS and SP (10_state.md R20, R23). -/
  regs : RegFile
  /-- The program counter, 0 to 256 (10_state.md R31, R32). -/
  pc : Nat
  /-- The instruction register (10_state.md R34). -/
  ir : Byte
  /-- The global interrupt enable (10_state.md R35). -/
  interruptsEnabled : Bool
  /-- Set and cleared by MUL alone (10_state.md R36). -/
  overflow : Bool
  /-- Running or Halted (10_state.md R38). -/
  run : RunState
  /-- The 256 memory cells (20_memory.md R50). -/
  mem : Memory
  /-- The output stream, oldest event first (10_state.md R39). -/
  out : List OutEvent
  /-- The model's own field (log entry 6): the first tick has happened, so the loader's pokes are over
  (20_memory.md R57). -/
  clockStarted : Bool
  deriving DecidableEq, Repr

/-- No outcome of this model is a fault: every fault of the spec is a NEXT state whose `run` is Halted with the report
(60_exceptions.md R170), so that what the tick did before it is kept. The type has no constructor; nothing raises one.
Safe: nothing is stopped that the spec lets go on (log entry 5). -/
inductive Fault where
  deriving DecidableEq, Repr

/-- What has no meaning. No tick is ever refused; the last three are answers to the host, outside the tick. -/
inductive Refusal where
  /-- An instruction whose arm has no meaning yet: raised by no arm of this model. Safe. -/
  | notModelled (mnemonic : String)
  /-- `raiseInterrupt` with a line above 7: refused by the host interface (60_exceptions.md R176). Raised by
  `raiseInterrupt`. Safe. -/
  | noSuchLine (line : Nat)
  /-- A poke after the first tick: no meaning is given to it (20_memory.md R57). Raised by `poke`. Safe. -/
  | pokeAfterFirstTick
  /-- A poke outside the 256 cells (log entry 9). Raised by `poke`. Safe. -/
  | pokeOutOfRange (address : Nat)
  deriving DecidableEq, Repr

/-- What a tick, a meaning or a host action answers. -/
abbrev Outcome := Host.Outcome State Fault Refusal

/-- The state after construction for any reset parameters, before the loader's pokes (70_reset_and_hazards.md R200). -/
def State.resetWith (p : ResetParams) : State where
  regs := { r0 := p.r0, r1 := p.r1, r2 := p.r2, r3 := p.r3, r4 := p.r4, r5 := p.im, r6 := p.is, r7 := 0xF8 }
  pc := 0
  ir := p.ir
  interruptsEnabled := true
  overflow := p.overflow
  run := .running
  mem := p.mem
  out := []
  clockStarted := false

/-- The state after reset under the parameters this model names (log entries 2, 3, 4). -/
def State.reset : State := State.resetWith Config.resetParams

end Sys2Proof.Machine
end

