-- ==== Sys2Proof/Machine/Ops.lean ====
section
/-! DEFINITION. The named operations over registers, memory, the stack and the run state that every meaning is written
in, taking a fault, delivering an interrupt, and the return from one. -/

namespace Sys2Proof.Machine

/-! ### Registers (10_state.md R20 to R26) -/

/-- `get(index)` (10_state.md R21). -/
def RegFile.get (f : RegFile) : Reg → Byte
  | .r0 => f.r0
  | .r1 => f.r1
  | .r2 => f.r2
  | .r3 => f.r3
  | .r4 => f.r4
  | .r5 => f.r5
  | .r6 => f.r6
  | .r7 => f.r7

/-- `set(index, value)` with the value already reduced (10_state.md R21, R22). -/
def RegFile.set (f : RegFile) (r : Reg) (v : Byte) : RegFile :=
  match r with
  | .r0 => { f with r0 := v }
  | .r1 => { f with r1 := v }
  | .r2 => { f with r2 := v }
  | .r3 => { f with r3 := v }
  | .r4 => { f with r4 := v }
  | .r5 => { f with r5 := v }
  | .r6 => { f with r6 := v }
  | .r7 => { f with r7 := v }

/-- `R[r]`. -/
def State.reg (s : State) (r : Reg) : Byte := s.regs.get r

/-- `R[r] <- v`: every register write stores `v mod 256` (10_state.md R22). -/
def State.writeReg (s : State) (r : Reg) (v : Int) : State := { s with regs := s.regs.set r (narrow v) }

/-- `SP <- (SP - 1) mod 256` (43_stack.md R133). -/
def State.decSp (s : State) : State := s.writeReg .sp ((s.reg .sp).toNat - 1)

/-- `SP <- (SP + 1) mod 256` (43_stack.md R133). -/
def State.incSp (s : State) : State := s.writeReg .sp ((s.reg .sp).toNat + 1)

/-! ### Memory (20_memory.md R50 to R55) -/

/-- The byte at an address. -/
def Memory.read : Memory → Nat → Byte
  | [], _ => Config.unlistedByte
  | (k, v) :: rest, a => if k = a then v else Memory.read rest a

/-- The memory without any cell at an address. -/
def Memory.clear (m : Memory) (a : Nat) : Memory := m.filter fun c => c.1 != a

/-- The memory with one cell put in front of the first that has a higher address. -/
def Memory.insert (a : Nat) (v : Byte) : Memory → Memory
  | [] => [(a, v)]
  | (k, w) :: rest => if a < k then (a, v) :: (k, w) :: rest else (k, w) :: Memory.insert a v rest

/-- The memory with one byte replaced, in canonical form again: a byte that reads as an unlisted one is not listed. -/
def Memory.write (m : Memory) (a : Nat) (v : Byte) : Memory :=
  if v = Config.unlistedByte then m.clear a else Memory.insert a v (m.clear a)

/-- `MemRead(a, 1)`: the byte, or the fault the address raises (20_memory.md R52). -/
def State.memRead (s : State) (a : Nat) : Except HaltReason Byte :=
  if a > 255 then .error (.addressOutOfRange a) else .ok (s.mem.read a)

/-- `MemWrite(a, 1, v)`: the state with the byte stored, or the fault the address raises (20_memory.md R52). -/
def State.memWrite (s : State) (a : Nat) (v : Byte) : Except HaltReason State :=
  if a > 255 then .error (.addressOutOfRange a) else .ok { s with mem := s.mem.write a v }

/-- `MemRead` at an address held in a byte, which is always in range (20_memory.md R52). -/
def State.load (s : State) (a : Byte) : Byte := s.mem.read a.toNat

/-- `MemWrite` at an address held in a byte, which is always in range (20_memory.md R52). -/
def State.store (s : State) (a : Byte) (v : Byte) : State := { s with mem := s.mem.write a.toNat v }

/-! ### Program counter, output, halting -/

/-- `pc <- pc + n`, without wrap: the result may be 256 (40_cycle.md R97). -/
def State.advance (s : State) (n : Nat) : State := { s with pc := s.pc + n }

/-- `pc <- target`, a byte (44_control.md R143). -/
def State.jumpTo (s : State) (target : Byte) : State := { s with pc := target.toNat }

/-- `Out(e)` (45_output.md R160). -/
def State.emit (s : State) (e : OutEvent) : State := { s with out := s.out ++ [e] }

/-- Enter Halted: taking a fault, and HLT. The tick makes no further effect, PC and everything done so far stay
(60_exceptions.md R170). -/
def State.halt (s : State) (r : HaltReason) : State := { s with run := .halted r }

/-- The code of a halt reason (60_exceptions.md R170). -/
def HaltReason.code : HaltReason → Nat
  | .hlt => 0
  | .invalidOpcode _ _ => 1
  | .invalidRegister _ _ _ => 2
  | .addressOutOfRange _ => 3

/-! ### Stack (43_stack.md R133, 40_cycle.md R98) -/

/-- Decrement SP, then write at the new SP a value read after the decrement. -/
def State.push (s : State) (value : State → Byte) : State :=
  s.decSp.store (s.decSp.reg .sp) (value s.decSp)

/-- `SP--; mem[SP] = R[r]`. -/
def State.pushReg (s : State) (r : Reg) : State := s.push fun t => t.reg r

/-- `R[r] = mem[SP]; SP++`: for SP itself the increment applies to the value just loaded. -/
def State.popReg (s : State) (r : Reg) : State := (s.writeReg r (s.load (s.reg .sp)).toNat).incSp

/-- `pc = mem[SP]; SP++`. -/
def State.popPc (s : State) : State := (s.jumpTo (s.load (s.reg .sp))).incSp

/-! ### Interrupt delivery and return (60_exceptions.md R171 to R175, 44_control.md R146) -/

/-- The lowest line whose bit is set (60_exceptions.md R173). -/
def lowestLine (masked : Byte) : Option Line := Line.all.find? fun i => masked.getLsbD i.val

/-- The line the controller services this tick, if any (60_exceptions.md R172). -/
def State.pendingLine (s : State) : Option Line :=
  if s.interruptsEnabled then lowestLine (s.reg .is &&& s.reg .im) else none

/-- The byte with only bit `i` set. -/
def lineBit (i : Line) : Byte := 1#8 <<< i.val

/-- The address of the vector of line `i` (60_exceptions.md R175). -/
def vectorAddress (i : Line) : Byte := BitVec.ofNat 8 (0xF8 + i.val)

/-- `IS <- IS & ~(1 << i)` (60_exceptions.md R174, step 5). -/
def State.acknowledge (s : State) (i : Line) : State := s.writeReg .is (s.reg .is &&& ~~~lineBit i).toNat

/-- Push PC, then R0 to R7 in increasing order (60_exceptions.md R174, steps 6 and 7). -/
def State.saveContext (s : State) : State :=
  Reg.all.foldl State.pushReg (s.push fun t => BitVec.ofNat 8 t.pc)

/-- Delivery of line `i`, the context switch in (60_exceptions.md R174, R175). -/
def State.deliver (s : State) (i : Line) : State :=
  let saved := ({ s with interruptsEnabled := false }.acknowledge i).saveContext
  saved.jumpTo (saved.load (vectorAddress i))

/-- Pop R7 down to R0, then PC, then enable interrupts: the context switch out (44_control.md R146). -/
def State.restoreContext (s : State) : State :=
  { (Reg.all.reverse.foldl State.popReg s).popPc with interruptsEnabled := true }

/-- Step 1 of the tick (60_exceptions.md R172). -/
def State.interruptControllerStep (s : State) : State :=
  match s.pendingLine with
  | none => s
  | some i => s.deliver i

end Sys2Proof.Machine
end

