-- ==== Sys2Proof/Machine/Operands.lean ====
section
/-! DEFINITION. Where an instruction's operands come from: its bytes in memory (40_cycle.md R93, R96), a register, an
address held in a register (42_load_store.md R123). -/

namespace Sys2Proof.Machine

/-- The bytes at PC, PC + 1 and PC + 2 that exist. Reads have no side effect (20_memory.md R55), so gathering them
before the decoder looks at them is the same as the reads of 40_cycle.md R93 and R96; an offset the decoder misses is
an address above 255 (log entry 12). -/
def State.instrBytes (s : State) : List Byte :=
  [0, 1, 2].filterMap fun j => (s.memRead (s.pc + j)).toOption

/-- `IR <- MemRead(pc, 1)`, with PC in range (40_cycle.md R93). -/
def State.fetch (s : State) : State := { s with ir := s.mem.read s.pc }

/-- The fault that undecodable bytes at PC raise, once IR holds the opcode (40_cycle.md R95, R96). -/
def State.decodeFault (s : State) : DecodeError → HaltReason
  | .unmappedOpcode op => .invalidOpcode s.pc op
  | .badRegister index => .invalidRegister s.pc s.ir index
  | .missingByte j => .addressOutOfRange (s.pc + j)

/-- The one memory addressing mode, register indirect: the address is the register's value (42_load_store.md R123). -/
def State.effectiveAddress (s : State) (r : Reg) : Byte := s.reg r

end Sys2Proof.Machine
end

