-- ==== Sys2Proof/Machine/Cycle.lean ====
section
/-! DEFINITION. A tick up to the execution of its instruction (40_cycle.md R90 to R96), and the placing of one
instruction where the next tick fetches. -/

namespace Sys2Proof.Machine

/-- What steps 0 to 3 and the operand fetch of a tick lead to. -/
inductive CycleResult where
  /-- The tick ends in this state: it was Halted, or it raised a fault. -/
  | ended (t : State)
  /-- The instruction executes in this state: any delivery is done and IR holds the opcode. -/
  | execute (i : Instr) (t : State)
  deriving DecidableEq, Repr

/-- The running machine at a tick's step 1 and 2: the interrupt check and the fetch (40_cycle.md R92, R93). -/
def State.beginCycle (s : State) : State :=
  { s with clockStarted := true }.interruptControllerStep.fetch

/-- Steps 0 to 3 of the tick and its operand fetch (40_cycle.md R90, R91, R95, R96). -/
def State.frontEnd (opc : OpcodeMap) (s : State) : CycleResult :=
  match s.run with
  | .halted _ => .ended s
  | .running =>
    if s.pc > 255 then .ended ({ s with clockStarted := true }.halt (.addressOutOfRange s.pc))
    else
      match decodeWith opc s.beginCycle.instrBytes with
      | .ok (i, _) => .execute i s.beginCycle
      | .error e => .ended (s.beginCycle.halt (s.beginCycle.decodeFault e))

/-- Bytes stored at consecutive addresses, those above 255 left out. -/
def State.storeBytes (s : State) (a : Nat) : List Byte → State
  | [] => s
  | b :: bs => (if a > 255 then s else { s with mem := s.mem.write a b }).storeBytes (a + 1) bs

/-- The byte count of the instruction at the head of the bytes, 1 where its opcode is unmapped. -/
def headWidth (bs : List Byte) : Nat :=
  match bs with
  | [] => 1
  | op :: _ => ((dispatch opcDefault op).map Mnemonic.width).getD 1

/-- The machine made ready to fetch `n` bytes at its PC in the next tick: Running, no delivery in the way, and PC moved
to 0 only where the bytes would lie past 0xFF (log entry 10). -/
def State.readyToFetch (s : State) (n : Nat) : State :=
  { s with
    run := .running
    pc := if s.pc + n > 256 then 0 else s.pc
    interruptsEnabled := if s.pendingLine = none then s.interruptsEnabled else false }

/-- The bytes of one instruction placed where the next tick fetches (log entry 10). -/
def State.placeInstruction (s : State) (bs : List Byte) : State :=
  (s.readyToFetch (headWidth bs)).storeBytes (s.readyToFetch (headWidth bs)).pc bs

end Sys2Proof.Machine
end

