-- ==== Sys2Proof/Machine/Flags.lean ====
section
/-! DEFINITION. The exact results of the ALU and its one flag (41_alu.md R110 to R113). -/

namespace Sys2Proof.Machine

/-- The sum of two bytes before it is reduced (41_alu.md R111). -/
def rawSum (x y : Byte) : Nat := x.toNat + y.toNat

/-- The product of two bytes before it is reduced (41_alu.md R112). -/
def rawProduct (x y : Byte) : Nat := x.toNat * y.toNat

/-- `overflow <- (raw > 255)` (41_alu.md R112). No other instruction writes the flag (10_state.md R36). -/
def State.setOverflow (s : State) (raw : Nat) : State := { s with overflow := decide (raw > 255) }

end Sys2Proof.Machine
end

