-- ==== Sys2Proof/Machine/Alu.lean ====
section
/-! DEFINITION. The ALU instructions (spec/41_alu.md). -/

namespace Sys2Proof.Machine

/-- ADD Ra, Rb (41_alu.md R111). -/
def execAdd (a b : Reg) (s : State) : Outcome :=
  .next ((s.writeReg a (rawSum (s.reg a) (s.reg b))).advance 3)

/-- MUL Ra, Rb (41_alu.md R112). -/
def execMul (a b : Reg) (s : State) : Outcome :=
  let raw := rawProduct (s.reg a) (s.reg b)
  .next (((s.setOverflow raw).writeReg a raw).advance 3)

end Sys2Proof.Machine
end

