-- ==== Sys2Proof/Machine/Control.lean ====
section
/-! DEFINITION. The control transfer and system instructions (spec/44_control.md). -/

namespace Sys2Proof.Machine

/-- JMP Ra (44_control.md R140). -/
def execJmp (a : Reg) (s : State) : Outcome :=
  .next (s.jumpTo (s.reg a))

/-- CALL Ra: the return address is checked before any effect, and the target is read after the decrement of SP
(44_control.md R141). -/
def execCall (a : Reg) (s : State) : Outcome :=
  let ret := s.pc + 2
  if ret > 255 then .next (s.halt (.addressOutOfRange ret))
  else
    let pushed := s.push fun _ => BitVec.ofNat 8 ret
    .next (pushed.jumpTo (pushed.reg a))

/-- RET (44_control.md R142). -/
def execRet (s : State) : Outcome :=
  .next s.popPc

/-- IRET, unconditional (44_control.md R146). -/
def execIret (s : State) : Outcome :=
  .next s.restoreContext

/-- HLT: PC is not changed (44_control.md R150). -/
def execHlt (s : State) : Outcome :=
  .next (s.halt .hlt)

end Sys2Proof.Machine
end

