-- ==== Sys2Proof/Machine/LoadStore.lean ====
section
/-! DEFINITION. The load and store instructions (spec/42_load_store.md). -/

namespace Sys2Proof.Machine

/-- LDI Rd, imm (42_load_store.md R120). -/
def execLdi (d : Reg) (imm : Byte) (s : State) : Outcome :=
  .next ((s.writeReg d imm.toNat).advance 3)

/-- LD Rd, Rb (42_load_store.md R121). -/
def execLd (d b : Reg) (s : State) : Outcome :=
  .next ((s.writeReg d (s.load (s.effectiveAddress b)).toNat).advance 3)

/-- ST Ra, Rb: the address register comes first (42_load_store.md R122). -/
def execSt (a b : Reg) (s : State) : Outcome :=
  .next ((s.store (s.effectiveAddress a) (s.reg b)).advance 3)

end Sys2Proof.Machine
end

