-- ==== Sys2Proof/Machine/Output.lean ====
section
/-! DEFINITION. The output instructions and the rendering of the output stream as text (spec/45_output.md). -/

namespace Sys2Proof.Machine

/-- PRN Ra (45_output.md R161). -/
def execPrn (a : Reg) (s : State) : Outcome :=
  .next ((s.emit (.dec (s.reg a))).advance 2)

/-- PRA Ra (45_output.md R162). -/
def execPra (a : Reg) (s : State) : Outcome :=
  .next ((s.emit (.chr (s.reg a))).advance 2)

/-- The decimal digits of a number below 1000, most significant first, with no leading zero, "0" for 0
(45_output.md R160). -/
def decimalDigits (n : Nat) : List Nat :=
  if n < 10 then [n]
  else if n < 100 then [n / 10, n % 10]
  else [n / 100, n / 10 % 10, n % 10]

/-- The code points of an event's text: the digits and one LF for `Dec`, the one character for `Chr`
(45_output.md R160). -/
def OutEvent.render : OutEvent → List Nat
  | .dec v => (decimalDigits v.toNat).map (0x30 + ·) ++ [0x0A]
  | .chr v => [v.toNat]

/-- The code points of the whole output stream, as the console receives them. -/
def State.outputText (s : State) : List Nat := s.out.flatMap OutEvent.render

end Sys2Proof.Machine
end

