-- ==== Sys2Proof/Machine/Stack.lean ====
section
/-! DEFINITION. The stack instructions (spec/43_stack.md). -/

namespace Sys2Proof.Machine

/-- PUSH Ra (43_stack.md R130). -/
def execPush (a : Reg) (s : State) : Outcome :=
  .next ((s.pushReg a).advance 2)

/-- POP Rd (43_stack.md R131). -/
def execPop (d : Reg) (s : State) : Outcome :=
  .next ((s.popReg d).advance 2)

end Sys2Proof.Machine
end

