-- ==== Sys2Proof/Machine/Step.lean ====
section
/-! DEFINITION. One tick of the machine (40_cycle.md R90). -/

namespace Sys2Proof.Machine

/-- `tick()` under any opcode map: the front end, then the instruction it leads to (40_cycle.md R90). -/
def tick (opc : OpcodeMap) (s : State) : Host.Outcome State Fault Refusal :=
  match s.frontEnd opc with
  | .ended t => .next t
  | .execute i t => exec i t

/-- The `step()` operation (00_scope.md R7) under the default opcode map. -/
def step (s : State) : Host.Outcome State Fault Refusal := tick opcDefault s

/-- `s` with the instruction of a table word stored where the next step fetches; it stands for the loader's pokes
(20_memory.md R57, log entry 10). -/
def State.withFetchWord (s : State) (nbits w : Nat) : State := s.placeInstruction (tableBytes nbits w)

end Sys2Proof.Machine
end

