-- ==== Sys2Proof/Machine/Assembly.lean ====
section
/-! DEFINITION. The notation in which the source and the spec write instructions (30_encoding.md R81): a printer in the
source's own form, and a reader that also takes a space after a comma and hexadecimal immediates. The machine never
uses it. -/

namespace Sys2Proof.Machine

/-- The instruction's name as written. -/
def mnemonicText : Mnemonic → List Char
  | .hlt => ['H', 'L', 'T']
  | .ldi => ['L', 'D', 'I']
  | .mul => ['M', 'U', 'L']
  | .add => ['A', 'D', 'D']
  | .prn => ['P', 'R', 'N']
  | .pra => ['P', 'R', 'A']
  | .push => ['P', 'U', 'S', 'H']
  | .pop => ['P', 'O', 'P']
  | .call => ['C', 'A', 'L', 'L']
  | .ret => ['R', 'E', 'T']
  | .jmp => ['J', 'M', 'P']
  | .st => ['S', 'T']
  | .ld => ['L', 'D']
  | .iret => ['I', 'R', 'E', 'T']

/-- The digits 0 to 15 as written. -/
def digitChars : List Char :=
  ['0', '1', '2', '3', '4', '5', '6', '7', '8', '9', 'A', 'B', 'C', 'D', 'E', 'F']

/-- A register as `R0` to `R7`, an immediate in decimal. -/
def operandText : OperandKind → Byte → List Char
  | .register, b => ['R', digitChars.getD b.toNat '?']
  | .immediate, b => (decimalDigits b.toNat).map fun d => digitChars.getD d '?'

/-- Operands separated by commas. -/
def commaSeparated : List (List Char) → List Char
  | [] => []
  | [t] => t
  | t :: ts => t ++ ',' :: commaSeparated ts

/-- An instruction in the source's form, as in `MUL R0,R1`. -/
def instrText (i : Instr) : List Char :=
  mnemonicText i.mnemonic ++
    match List.zipWith operandText i.mnemonic.operandKinds i.operandBytes with
    | [] => []
    | ts => ' ' :: commaSeparated ts

/-- A program in the source's form, instructions separated by `;` and a space. -/
def programText : List Instr → List Char
  | [] => []
  | [i] => instrText i
  | i :: is => instrText i ++ ';' :: ' ' :: programText is

/-- The value of a digit in a base of at most 16. -/
def digitValue (base : Nat) (c : Char) : Option Nat := (digitChars.take base).idxOf? c.toUpper

/-- The value of digits, most significant first, where it fits a byte. -/
def numberValue (base : Nat) (acc : Nat) : List Char → Option Byte
  | [] => if acc < 256 then some (BitVec.ofNat 8 acc) else none
  | c :: cs =>
    match digitValue base c with
    | none => none
    | some d => numberValue base (acc * base + d) cs

/-- The operand byte that a written operand stands for. -/
def operandByte : OperandKind → List Char → Option Byte
  | .register, ['R', c] => (digitValue 8 c).map (BitVec.ofNat 8)
  | .register, _ => none
  | .immediate, [] => none
  | .immediate, ['0', 'x'] => none
  | .immediate, '0' :: 'x' :: cs => numberValue 16 0 cs
  | .immediate, cs => numberValue 10 0 cs

/-- The pieces of a text between the separators. -/
def splitAt (sep : Char) : List Char → List (List Char)
  | [] => [[]]
  | c :: cs =>
    match splitAt sep cs with
    | [] => [[c]]
    | t :: ts => if c = sep then [] :: t :: ts else (c :: t) :: ts

/-- The operand bytes of written operands, one for each kind. -/
def operandBytesOf : List OperandKind → List (List Char) → Option (List Byte)
  | [], [] => some []
  | k :: ks, t :: ts =>
    match operandByte k (t.dropWhile (· = ' ')), operandBytesOf ks ts with
    | some b, some bs => some (b :: bs)
    | _, _ => none
  | _, _ => none

/-- The written operands after an instruction's name. -/
def operandTexts : List Char → List (List Char)
  | [] => []
  | _ :: cs => splitAt ',' cs

/-- The instruction a text stands for. -/
def readInstr (t : List Char) : Option Instr :=
  match Mnemonic.all.find? fun m => mnemonicText m = t.takeWhile (· ≠ ' ') with
  | none => none
  | some m =>
    match operandBytesOf m.operandKinds (operandTexts (t.dropWhile (· ≠ ' '))) with
    | none => none
    | some bs =>
      match decodeOperands m bs with
      | .ok (i, _) => some i
      | .error _ => none

/-- The program a text stands for, instructions separated by `;`. -/
def readProgram (t : List Char) : Option (List Instr) :=
  ((splitAt ';' t).map fun p => readInstr (p.dropWhile (· = ' '))).foldr
    (fun i is => match i, is with
      | some i, some is => some (i :: is)
      | _, _ => none) (some [])

end Sys2Proof.Machine
end

