-- ==== Sys2Proof/Machine/HostInterface.lean ====
section
/-! DEFINITION. What the host may do to the machine, and when (60_exceptions.md R186). External events stand between
ticks and are no part of a tick (40_cycle.md R99, log entry 7). -/

namespace Sys2Proof.Machine

/-- `raiseInterrupt(line)`: ORs one bit into IS; nothing in Halted; refused for a line above 7
(60_exceptions.md R176). -/
def raiseInterrupt (line : Nat) (s : State) : Outcome :=
  if h : line < 8 then
    match s.run with
    | .halted _ => .next s
    | .running => .next (s.writeReg .is (s.reg .is ||| lineBit ⟨line, h⟩).toNat)
  else .refused (.noSuchLine line)

/-- A timer event: the timer raises line 1 (60_exceptions.md R177). -/
def timerEvent (s : State) : Outcome := raiseInterrupt 1 s

/-- The loader's `poke(address, value)`: only before the first tick (20_memory.md R57). -/
def poke (address : Nat) (value : Byte) (s : State) : Outcome :=
  if s.clockStarted then .refused .pokeAfterFirstTick
  else
    match s.memWrite address value with
    | .ok t => .next t
    | .error _ => .refused (.pokeOutOfRange address)

/-- One action of the host (60_exceptions.md R186); the construction is `State.resetWith`. -/
inductive HostAction where
  | poke (address : Nat) (value : Byte)
  | tick
  | raiseInterrupt (line : Nat)
  | timer
  deriving DecidableEq, Repr

/-- The outcome of one action of the host. -/
def hostAct (opc : OpcodeMap) : HostAction → State → Outcome
  | .poke a v, s => poke a v s
  | .tick, s => tick opc s
  | .raiseInterrupt l, s => raiseInterrupt l s
  | .timer, s => timerEvent s

/-- A run: the host's actions in order, ended by the first that is refused (40_cycle.md R102). The list is the
schedule, so a statement over every list covers every behaviour of the timer (parameter TIMER, decision D18). -/
def hostRun (opc : OpcodeMap) : List HostAction → State → Outcome
  | [], s => .next s
  | act :: acts, s =>
    match hostAct opc act s with
    | .next t => hostRun opc acts t
    | .fault r => .fault r
    | .refused r => .refused r

end Sys2Proof.Machine
end

