-- ==== Sys2Proof/Safety.lean ====
section
/-! DEFINITION. What the statements are said in: what counts as a sound state, which fault a tick meets first, which
registers and cells an instruction may change, and how a format's bytes decode. -/

namespace Sys2Proof.Machine

/-! ### Sound states -/

/-- The halt report agrees with the state it was made in (60_exceptions.md R170). -/
def State.ReportTrue (opc : OpcodeMap) (s : State) : Prop :=
  match s.run with
  | .running => True
  | .halted .hlt => s.ir = opc .hlt
  | .halted (.invalidOpcode a op) => a = s.pc ∧ a ≤ 255 ∧ op = s.ir ∧ ∀ m, opc m ≠ op
  | .halted (.invalidRegister a op k) =>
    a = s.pc ∧ a ≤ 255 ∧ op = s.ir ∧ 7 < k.toNat ∧ ∃ m, opc m = op ∧ .register ∈ m.operandKinds
  | .halted (.addressOutOfRange a) => a = 256 ∧ 254 ≤ s.pc

/-- The invariant of the machine: PC is 0 to 256 (10_state.md R32), memory is canonical and inside the address space
(20_memory.md R50), a halt report is true, and before the first tick nothing has run (70_reset_and_hazards.md R200). -/
structure State.Inv (opc : OpcodeMap) (s : State) : Prop where
  pc_le : s.pc ≤ 256
  mem_wf : s.mem.wf
  report : s.ReportTrue opc
  fresh : s.clockStarted = false → s.run = .running ∧ s.pc = 0 ∧ s.out = []

/-! ### The order of a tick's checks -/

/-- The first fault of the operand fetch from offset `j` on, as the loop of 40_cycle.md R96 meets it. -/
def State.operandFault (s : State) (j : Nat) : List OperandKind → Option HaltReason
  | [] => none
  | k :: ks =>
    if s.pc + j > 255 then some (.addressOutOfRange (s.pc + j))
    else if k = .register ∧ 7 < (s.mem.read (s.pc + j)).toNat then
      some (.invalidRegister s.pc (s.mem.read s.pc) (s.mem.read (s.pc + j)))
    else s.operandFault (j + 1) ks

/-- Checks 4 to 7 of 40_cycle.md R101, in a state where delivery is done. -/
def State.instructionFault (opc : OpcodeMap) (s : State) : Option HaltReason :=
  match dispatch opc (s.mem.read s.pc) with
  | none => some (.invalidOpcode s.pc (s.mem.read s.pc))
  | some m =>
    match s.operandFault 1 m.operandKinds with
    | some r => some r
    | none => if m = .call ∧ s.pc + 2 > 255 then some (.addressOutOfRange (s.pc + 2)) else none

/-- The fault a tick in Running reports, if any: checks 2 to 7 of 40_cycle.md R101. -/
def State.firstFault (opc : OpcodeMap) (s : State) : Option HaltReason :=
  if s.pc > 255 then some (.addressOutOfRange s.pc) else s.interruptControllerStep.instructionFault opc

/-! ### What may change -/

/-- No register outside the list changes. -/
def OnlyRegsChange (rs : List Reg) (s t : State) : Prop := ∀ r, r ∉ rs → t.reg r = s.reg r

/-- No memory cell outside the list changes. -/
def OnlyCellsChange (as : List Byte) (s t : State) : Prop := ∀ a, a ∉ as → t.load a = s.load a

/-- IR, `interruptsEnabled`, the run state and the host's phase are as before: no fault, no halt. -/
def ControlKept (s t : State) : Prop :=
  t.ir = s.ir ∧ t.interruptsEnabled = s.interruptsEnabled ∧ t.run = s.run ∧ t.clockStarted = s.clockStarted

/-- The registers an instruction writes: the one it names as a destination, and those 10_state.md R25 gives it. -/
def writtenRegs : Instr → List Reg
  | .hlt => []
  | .ldi d _ => [d]
  | .mul a _ => [a]
  | .add a _ => [a]
  | .prn _ => []
  | .pra _ => []
  | .push _ => [.sp]
  | .pop d => [d, .sp]
  | .call _ => [.sp]
  | .ret => [.sp]
  | .jmp _ => []
  | .st _ _ => []
  | .ld d _ => [d]
  | .iret => Reg.all

/-- The address an instruction stores to, if it stores (20_memory.md R56). -/
def State.storedAddresses (s : State) : Instr → List Byte
  | .st a _ => [s.effectiveAddress a]
  | .push _ => [s.decSp.reg .sp]
  | .call _ => if s.pc + 2 > 255 then [] else [s.decSp.reg .sp]
  | .hlt | .ldi _ _ | .mul _ _ | .add _ _ | .prn _ | .pra _ | .pop _ | .ret | .jmp _ | .ld _ _ | .iret => []

/-- The events an instruction appends to the output stream (45_output.md R161, R162). -/
def State.emitted (s : State) : Instr → List OutEvent
  | .prn a => [.dec (s.reg a)]
  | .pra a => [.chr (s.reg a)]
  | .hlt | .ldi _ _ | .mul _ _ | .add _ _ | .push _ | .pop _ | .call _ | .ret | .jmp _ | .st _ _ | .ld _ _ | .iret =>
    []

/-! ### Formats -/

/-- The opcode alone is the instruction (30_encoding.md R72, format F0). -/
def DecodesF0 (m : Mnemonic) (i : Instr) : Prop :=
  ∀ opc : OpcodeMap, opc.Admissible → ∀ rest, decodeWith opc (opc m :: rest) = .ok (i, rest)

/-- One register byte after the opcode, with each way it can be rejected (30_encoding.md R72, format F1, R74). -/
def DecodesF1 (m : Mnemonic) (build : Reg → Instr) : Prop :=
  ∀ opc : OpcodeMap, opc.Admissible → ∀ (x : Byte) (r : Reg) (rest : List Byte),
    decodeWith opc [opc m] = .error (.missingByte 1) ∧
    (7 < x.toNat → decodeWith opc (opc m :: x :: rest) = .error (.badRegister x)) ∧
    decodeWith opc (opc m :: r.toByte :: rest) = .ok (build r, rest)

/-- Two register bytes after the opcode, with each way they can be rejected (30_encoding.md R72, format F2R, R74). -/
def DecodesF2R (m : Mnemonic) (build : Reg → Reg → Instr) : Prop :=
  ∀ opc : OpcodeMap, opc.Admissible → ∀ (x : Byte) (a b : Reg) (rest : List Byte),
    decodeWith opc [opc m] = .error (.missingByte 1) ∧
    (7 < x.toNat → decodeWith opc (opc m :: x :: rest) = .error (.badRegister x)) ∧
    decodeWith opc [opc m, a.toByte] = .error (.missingByte 2) ∧
    (7 < x.toNat → decodeWith opc (opc m :: a.toByte :: x :: rest) = .error (.badRegister x)) ∧
    decodeWith opc (opc m :: a.toByte :: b.toByte :: rest) = .ok (build a b, rest)

/-- A register byte and a literal byte after the opcode; the literal is never rejected (30_encoding.md R72, format F2I,
R74, R75). -/
def DecodesF2I (m : Mnemonic) (build : Reg → Byte → Instr) : Prop :=
  ∀ opc : OpcodeMap, opc.Admissible → ∀ (x imm : Byte) (d : Reg) (rest : List Byte),
    decodeWith opc [opc m] = .error (.missingByte 1) ∧
    (7 < x.toNat → decodeWith opc (opc m :: x :: rest) = .error (.badRegister x)) ∧
    decodeWith opc [opc m, d.toByte] = .error (.missingByte 2) ∧
    decodeWith opc (opc m :: d.toByte :: imm :: rest) = .ok (build d imm, rest)

/-! ### The host's side -/

/-- What a cell holds after pokes, oldest first, into a memory (20_memory.md R57). -/
def pokedByte (m : Memory) (pokes : List Host.Cell) (a : Nat) : Byte :=
  pokes.foldl (fun v c => if c.1 = a then c.2 else v) (m.read a)

/-- The events that may still happen to a halted machine: ticks, timer events and raised lines. -/
def HostAction.isEvent : HostAction → Bool
  | .poke _ _ => false
  | .tick => true
  | .raiseInterrupt l => l < 8
  | .timer => true

end Sys2Proof.Machine
end

