-- ==== Sys2Proof/Certificates/Slice0/Obligations.lean ====
section
/-! DEFINITION. The statements for the provers. Each docstring names the rules of spec/ it formalises. -/

open Sys2Proof Sys2Proof.Machine

/-! ### Construction, registers, memory -/

/-- After construction with any reset parameters and any pokes of the loader, every element of the state has the value
of the reset table (70_reset_and_hazards.md R200). The clause on `clockStarted`, the model's own field, is the model's
choice (log entry 6). -/
def Obligations.ConstructionAndPokesLeaveTheResetState : Prop :=
  ∀ (opc : OpcodeMap) (p : ResetParams) (pokes : List (Byte × Byte)),
    ∃ t, hostRun opc (pokes.map fun c => .poke c.1.toNat c.2) (State.resetWith p) = .next t ∧
      t.reg .r0 = p.r0 ∧ t.reg .r1 = p.r1 ∧ t.reg .r2 = p.r2 ∧ t.reg .r3 = p.r3 ∧ t.reg .r4 = p.r4 ∧
      t.reg .im = p.im ∧ t.reg .is = p.is ∧ t.reg .sp = 0xF8#8 ∧ t.pc = 0 ∧ t.ir = p.ir ∧
      t.interruptsEnabled = true ∧ t.overflow = p.overflow ∧ t.run = .running ∧ t.out = [] ∧
      t.clockStarted = false ∧
      ∀ a : Byte, t.load a = pokedByte p.mem (pokes.map fun c => (c.1.toNat, c.2)) a.toNat

/-- The invariant holds after construction with any parameters whose memory is canonical, and in `State.reset`, whose
zero values are the model's choice (log entries 2, 3, 4). -/
def Obligations.ConstructionMeetsTheInvariant : Prop :=
  (∀ (opc : OpcodeMap) (p : ResetParams), Memory.wf p.mem → (State.resetWith p).Inv opc) ∧
    ∀ opc : OpcodeMap, State.reset.Inv opc

/-- If IM and IS have a common set bit at reset, the first tick begins by delivering the lowest such line, and if they
have none it begins by fetching at address 0 (70_reset_and_hazards.md R202). The value of the model's own field
`clockStarted` is log entry 6. -/
def Obligations.FirstTickDeliversWhenResetMaskMeetsStatus : Prop :=
  ∀ p : ResetParams,
    (p.is &&& p.im ≠ 0 → ∃ i : Line, (p.is &&& p.im).getLsbD i.val = true ∧
      (∀ j : Line, j < i → (p.is &&& p.im).getLsbD j.val = false) ∧
      (State.resetWith p).beginCycle = ({ State.resetWith p with clockStarted := true }.deliver i).fetch) ∧
    (p.is &&& p.im = 0 → (State.resetWith p).beginCycle.pc = 0)

/-- Every register write stores the value modulo 256 and changes no other register; SP wraps both ways
(10_state.md R22). -/
def Obligations.RegisterWritesReduceModulo256 : Prop :=
  ∀ (s : State) (r : Reg) (v : Int),
    (((s.writeReg r v).reg r).toNat : Int) = v % 256 ∧ OnlyRegsChange [r] s (s.writeReg r v) ∧
    (s.decSp.reg .sp).toNat = ((s.reg .sp).toNat + 255) % 256 ∧
    (s.incSp.reg .sp).toNat = ((s.reg .sp).toNat + 1) % 256

/-- A memory access above 255 raises AddressOutOfRange and has no effect; one in range reads the byte, or stores it
and changes nothing else, and a read gives the last byte written (20_memory.md R52, R55). -/
def Obligations.MemoryAccessesAreRangeCheckedAndExact : Prop :=
  ∀ (s : State) (a : Nat) (v : Byte),
    (a > 255 → s.memRead a = .error (.addressOutOfRange a) ∧ s.memWrite a v = .error (.addressOutOfRange a)) ∧
    (a ≤ 255 → s.memRead a = .ok (s.load (BitVec.ofNat 8 a)) ∧
      ∃ t, s.memWrite a v = .ok t ∧ t = { s with mem := t.mem } ∧ t.memRead a = .ok v ∧
        ∀ b, b ≠ a → t.memRead b = s.memRead b)

/-- Two canonical memories that read alike at every address are the same data. -/
def Obligations.CanonicalMemoriesWithEqualReadsAreEqual : Prop :=
  ∀ m n : Memory, m.wf → n.wf → (∀ a, m.read a = n.read a) → m = n

/-- Every contents of the 256 cells, so every MEM_INIT, is some canonical memory (20_memory.md R50, R58). -/
def Obligations.EveryMemoryContentIsRepresentable : Prop :=
  ∀ f : Byte → Byte, ∃ m : Memory, m.wf ∧ ∀ a : Byte, m.read a.toNat = f a

/-! ### Encoding -/

/-- Under every admissible opcode map, what the encoder writes the decoder reads back, whatever bytes follow
(30_encoding.md R72 to R76). -/
def Obligations.DecodeOfEncodeIsTheInstruction : Prop :=
  ∀ opc : OpcodeMap, opc.Admissible → ∀ (i : Instr) (rest : List Byte),
    decodeWith opc (encodeWith opc i ++ rest) = .ok (i, rest)

/-- Whatever the decoder accepts is the encoding of the instruction it answers: no byte is ignored, and each
instruction has one encoding (30_encoding.md R72, R74, R79). -/
def Obligations.EncodeOfDecodeIsTheBytes : Prop :=
  ∀ (opc : OpcodeMap) (bs : List Byte) (i : Instr) (rest : List Byte),
    decodeWith opc bs = .ok (i, rest) → bs = encodeWith opc i ++ rest ∧ (encodeWith opc i).length = i.width

/-- The decoder accepts exactly the byte strings that the format tables call one instruction (30_encoding.md R70 to
R80). -/
def Obligations.DecoderAcceptsExactlyTheWellFormedBytes : Prop :=
  ∀ opc : OpcodeMap, opc.Admissible → ∀ bs : List Byte,
    (∃ i, decodeWith opc bs = .ok (i, [])) ↔ bytesWellFormed opc bs = true

/-- Under every admissible opcode map the dispatch table inverts it, 0xFF is unmapped, and exactly fourteen bytes are
mapped (30_encoding.md R76). -/
def Obligations.DispatchInvertsTheOpcodeMap : Prop :=
  ∀ opc : OpcodeMap, opc.Admissible →
    (∀ (b : Byte) (m : Mnemonic), dispatch opc b = some m ↔ opc m = b) ∧
    dispatch opc 0xFF = none ∧
    (∀ b : Byte, dispatch opc b = none ↔ ∀ m, opc m ≠ b) ∧
    (Mnemonic.all.map opc).Nodup ∧ (Mnemonic.all.map opc).length = 14 ∧
    ∀ b : Byte, (dispatch opc b).isSome = true ↔ b ∈ Mnemonic.all.map opc

/-- The default map is admissible and leaves 242 bytes unmapped, 0x00 among them (30_encoding.md R77, R78; that the
machine has these bytes is log entry 1). -/
def Obligations.DefaultMapLeaves242BytesUnmapped : Prop :=
  opcDefault.Admissible ∧
  ((List.range 256).filter fun n => dispatch opcDefault (BitVec.ofNat 8 n) = none).length = 242 ∧
    dispatch opcDefault 0x00 = none ∧ dispatch opcDefault 0xFF = none

/-- One word of each family, written out from the format and opcode tables, decodes to its instruction, and one bad
word of each kind is rejected by name (30_encoding.md R72, R77). -/
def Obligations.SampleWordsDecodeAsTheTablesSay : Prop :=
  decode [0xA8, 0x00, 0x01] = .ok (.add .r0 .r1, []) ∧
    decode [0x99, 0x03, 0xFF] = .ok (.ldi .r3 0xFF, []) ∧
    decode [0x9A, 0x00, 0x01] = .ok (.st .r0 .r1, []) ∧
    decode [0x4D, 0x07] = .ok (.push .r7, []) ∧
    decode [0x48, 0x02] = .ok (.call .r2, []) ∧
    decode [0x0B] = .ok (.iret, []) ∧
    decode [0x43, 0x00] = .ok (.prn .r0, []) ∧
    decode [0x00] = .error (.unmappedOpcode 0x00) ∧
    decode [0xA8, 0x00, 0x09] = .error (.badRegister 0x09) ∧
    decode [0x99, 0x00] = .error (.missingByte 2)

/-- The reader of the assembler notation gives back every instruction from its printed form (30_encoding.md R81). -/
def Obligations.AssemblerNotationReadsBack : Prop :=
  ∀ i : Instr, readInstr (instrText i) = some i

/-! ### The instruction cycle -/

/-- The machine starts Running, and once it is Halted no tick, timer event or raised line changes anything, however
many there are (10_state.md R38). -/
def Obligations.HaltedIsTerminal : Prop :=
  (∀ p : ResetParams, (State.resetWith p).run = .running) ∧
    ∀ (opc : OpcodeMap) (acts : List HostAction) (s : State) (r : HaltReason),
      s.run = .halted r → (∀ act ∈ acts, act.isEvent = true) → hostRun opc acts s = .next s

/-- A tick in Halted does nothing; a tick with PC = 256 only raises AddressOutOfRange(256); and PC = 256 comes only
from advancing over an instruction whose last byte is at 0xFF (40_cycle.md R91). What becomes of the model's own field
`clockStarted` is left open here (log entry 6). -/
def Obligations.PcPastTheEndFaultsBeforeAnythingElse : Prop :=
  (∀ (opc : OpcodeMap) (s : State) (r : HaltReason), s.run = .halted r → tick opc s = .next s) ∧
  (∀ (opc : OpcodeMap) (s : State), s.run = .running → s.pc = 256 →
    ∃ c, tick opc s = .next { s with run := .halted (.addressOutOfRange 256), clockStarted := c }) ∧
  ∀ (opc : OpcodeMap) (s t : State), s.pc ≤ 255 → tick opc s = .next t → t.pc = 256 →
    ∃ i rest, decodeWith opc s.beginCycle.instrBytes = .ok (i, rest) ∧ s.beginCycle.pc + i.width = 256

/-- Fetching an unmapped byte halts with InvalidOpcode at the PC of the fetch; IR holds the byte, a delivery of the
same tick stays, and nothing else changes (40_cycle.md R93, R95). What becomes of the model's own field `clockStarted`
is left open here (log entry 6). -/
def Obligations.UnmappedOpcodeHaltsAfterTheFetch : Prop :=
  ∀ (opc : OpcodeMap) (s : State), s.run = .running → s.pc ≤ 255 →
    (∀ m, opc m ≠ s.interruptControllerStep.mem.read s.interruptControllerStep.pc) →
    ∃ c, tick opc s = .next { s.interruptControllerStep with
      ir := s.interruptControllerStep.mem.read s.interruptControllerStep.pc
      run := .halted (.invalidOpcode s.interruptControllerStep.pc
        (s.interruptControllerStep.mem.read s.interruptControllerStep.pc))
      clockStarted := c }

/-- When the bytes at PC, after any delivery, decode to an instruction, the tick is that instruction executed in the
state that the delivery and the fetch leave (40_cycle.md R90, R92, R93, R97). The value of the model's own field
`clockStarted` is log entry 6. -/
def Obligations.StepRunsTheDecodedInstruction : Prop :=
  ∀ (opc : OpcodeMap) (s : State) (i : Instr) (rest : List Byte), s.run = .running → s.pc ≤ 255 →
    decodeWith opc s.interruptControllerStep.instrBytes = .ok (i, rest) →
    tick opc s = exec i { s.interruptControllerStep with
      ir := s.interruptControllerStep.mem.read s.interruptControllerStep.pc, clockStarted := true }

/-- The operand fetch reads and checks the operand bytes in order before any effect: the first that is out of range
or names no register halts the machine with nothing else done, and if none is, the instruction of that mnemonic
executes (40_cycle.md R96). -/
def Obligations.OperandFetchFaultsInOrderBeforeAnyEffect : Prop :=
  ∀ (opc : OpcodeMap) (s : State) (m : Mnemonic), s.run = .running → s.pc ≤ 255 →
    dispatch opc s.beginCycle.ir = some m →
    (∀ r, s.beginCycle.operandFault 1 m.operandKinds = some r →
      tick opc s = .next { s.beginCycle with run := .halted r }) ∧
    (s.beginCycle.operandFault 1 m.operandKinds = none →
      ∃ i, i.mnemonic = m ∧ tick opc s = exec i s.beginCycle)

/-- A tick reports the first check that fails, in the order Halted, PC, opcode, operand 1, operand 2, CALL's return
address; if none fails it does not fault, and only HLT halts (40_cycle.md R101). -/
def Obligations.TickReportsTheFirstFailingCheck : Prop :=
  (∀ (opc : OpcodeMap) (s : State) (r : HaltReason), s.run = .halted r → tick opc s = .next s) ∧
  ∀ (opc : OpcodeMap) (s : State), s.run = .running → ∃ t, tick opc s = .next t ∧
    (∀ r, s.firstFault opc = some r → t.run = .halted r) ∧
    (s.firstFault opc = none → ∃ i rest, decodeWith opc s.beginCycle.instrBytes = .ok (i, rest) ∧
      t.run = if i = .hlt then .halted .hlt else .running)

/-- Every tick answers a next state: no tick is a fault outcome or a refusal (40_cycle.md R90, 60_exceptions.md
R170). -/
def Obligations.EveryTickAnswersANextState : Prop :=
  ∀ (opc : OpcodeMap) (s : State), ∃ t, tick opc s = .next t

/-- Halting records the reason and changes nothing else; the reasons have the codes 0 to 3 (60_exceptions.md R170). -/
def Obligations.HaltingRecordsTheReasonOnly : Prop :=
  ∀ (s : State) (r : HaltReason) (a : Nat) (op k : Byte),
    s.halt r = { s with run := .halted r } ∧ HaltReason.hlt.code = 0 ∧ (HaltReason.invalidOpcode a op).code = 1 ∧
      (HaltReason.invalidRegister a op k).code = 2 ∧ (HaltReason.addressOutOfRange a).code = 3

/-- Running step on a word that the table's numbering gives and the decoder accepts, placed by `withFetchWord`,
executes that instruction (the placing is the model's, log entry 10, and so is the value of `clockStarted`, log
entry 6). -/
def Obligations.PlacedInstructionIsTheNextToRun : Prop :=
  ∀ (s : State) (nbits w : Nat) (i : Instr), decodeTableWord nbits w = some i →
    (s.withFetchWord nbits w).regs = s.regs ∧ (s.withFetchWord nbits w).out = s.out ∧
    step (s.withFetchWord nbits w) = exec i { s.withFetchWord nbits w with
      ir := opcDefault i.mnemonic, clockStarted := true }

/-! ### Interrupts -/

/-- The controller delivers exactly when `interruptsEnabled` is true and IS & IM is not 0, and then the lowest line of
that AND; the other lines stay as they were (60_exceptions.md R172, R173). -/
def Obligations.ControllerServicesTheLowestEnabledPendingLine : Prop :=
  ∀ (s : State) (i : Line),
    (s.pendingLine = some i ↔ s.interruptsEnabled = true ∧
      ((s.reg .is).getLsbD i.val = true ∧ (s.reg .im).getLsbD i.val = true) ∧
      ∀ j : Line, j < i → ¬((s.reg .is).getLsbD j.val = true ∧ (s.reg .im).getLsbD j.val = true)) ∧
    (s.interruptsEnabled = false ∨ s.reg .is &&& s.reg .im = 0 → s.interruptControllerStep = s) ∧
    (s.interruptsEnabled = true → s.reg .is &&& s.reg .im ≠ 0 → ∃ l, s.pendingLine = some l) ∧
    (s.pendingLine = some i → s.interruptControllerStep = s.deliver i ∧
      (s.interruptControllerStep.reg .is).getLsbD i.val = false ∧
      ∀ j : Line, j ≠ i → (s.interruptControllerStep.reg .is).getLsbD j.val = (s.reg .is).getLsbD j.val)

/-- Delivery clears the line's IS bit and the global enable, stores the nine bytes of the delivery table below SP, and
sets PC to the vector read after those stores; nothing else changes (60_exceptions.md R174, R175). -/
def Obligations.DeliverySavesPcAndRegistersAndReadsTheVector : Prop :=
  ∀ (s : State) (i : Line), s.pc ≤ 255 →
    ((s.deliver i).load (s.reg .sp - 1#8)).toNat = s.pc ∧
    (s.deliver i).load (s.reg .sp - 2#8) = s.reg .r0 ∧
    (s.deliver i).load (s.reg .sp - 3#8) = s.reg .r1 ∧
    (s.deliver i).load (s.reg .sp - 4#8) = s.reg .r2 ∧
    (s.deliver i).load (s.reg .sp - 5#8) = s.reg .r3 ∧
    (s.deliver i).load (s.reg .sp - 6#8) = s.reg .r4 ∧
    (s.deliver i).load (s.reg .sp - 7#8) = s.reg .im ∧
    (s.deliver i).load (s.reg .sp - 8#8) = s.reg .is &&& ~~~(1#8 <<< i.val) ∧
    (s.deliver i).load (s.reg .sp - 9#8) = s.reg .sp - 9#8 ∧
    OnlyCellsChange [s.reg .sp - 1#8, s.reg .sp - 2#8, s.reg .sp - 3#8, s.reg .sp - 4#8, s.reg .sp - 5#8,
      s.reg .sp - 6#8, s.reg .sp - 7#8, s.reg .sp - 8#8, s.reg .sp - 9#8] s (s.deliver i) ∧
    (s.deliver i).reg .sp = s.reg .sp - 9#8 ∧
    (s.deliver i).reg .is = s.reg .is &&& ~~~(1#8 <<< i.val) ∧
    OnlyRegsChange [.is, .sp] s (s.deliver i) ∧
    (s.deliver i).interruptsEnabled = false ∧
    (s.deliver i).pc = ((s.deliver i).load (0xF8#8 + BitVec.ofNat 8 i.val)).toNat ∧
    (s.deliver i).overflow = s.overflow ∧ (s.deliver i).ir = s.ir ∧ (s.deliver i).run = s.run ∧
    (s.deliver i).out = s.out ∧ (s.deliver i).clockStarted = s.clockStarted

/-- IRET, in every state, pops R7 first and the rest from where the loaded SP points: R6 down to R0, then PC; it sets
the global enable and changes nothing else (44_control.md R146). -/
def Obligations.IretPopsRegistersThenPc : Prop :=
  DecodesF0 .iret .iret ∧ opcDefault .iret = 0x0B ∧
  ∀ s : State, ∃ t, exec .iret s = .next t ∧
    t.reg .is = s.load (s.load (s.reg .sp) + 1#8) ∧
    t.reg .im = s.load (s.load (s.reg .sp) + 2#8) ∧
    t.reg .r4 = s.load (s.load (s.reg .sp) + 3#8) ∧
    t.reg .r3 = s.load (s.load (s.reg .sp) + 4#8) ∧
    t.reg .r2 = s.load (s.load (s.reg .sp) + 5#8) ∧
    t.reg .r1 = s.load (s.load (s.reg .sp) + 6#8) ∧
    t.reg .r0 = s.load (s.load (s.reg .sp) + 7#8) ∧
    t.pc = (s.load (s.load (s.reg .sp) + 8#8)).toNat ∧
    t.reg .sp = s.load (s.reg .sp) + 9#8 ∧
    t.interruptsEnabled = true ∧ t.overflow = s.overflow ∧ OnlyCellsChange [] s t ∧
    t.ir = s.ir ∧ t.run = s.run ∧ t.out = s.out ∧ t.clockStarted = s.clockStarted

/-- Whatever the handler did, if SP and the nine cells are as the delivery left them, IRET restores PC and the eight
registers to their values before the delivery, but for the serviced IS bit, which stays clear; what the handler or a
raised line put into IS and IM meanwhile is lost (44_control.md R147, 70_reset_and_hazards.md R204). -/
def Obligations.IretAfterDeliveryRestoresTheInterruptedProgram : Prop :=
  ∀ (s h : State) (i : Line), s.pc ≤ 255 →
    h.reg .sp = (s.deliver i).reg .sp →
    (∀ k : Nat, k < 9 → h.load (s.reg .sp - 9#8 + BitVec.ofNat 8 k) =
      (s.deliver i).load (s.reg .sp - 9#8 + BitVec.ofNat 8 k)) →
    (s.deliver i).interruptsEnabled = false ∧
    ∃ t, exec .iret h = .next t ∧ t.pc = s.pc ∧ OnlyRegsChange [.is] s t ∧
      (t.reg .is).getLsbD i.val = false ∧
      (∀ j : Line, j ≠ i → (t.reg .is).getLsbD j.val = (s.reg .is).getLsbD j.val) ∧
      t.interruptsEnabled = true

/-- Only delivery clears the global enable and only IRET sets it; it is true at reset, and no instruction's effect
depends on it (10_state.md R35). -/
def Obligations.InterruptEnableIsWrittenOnlyByDeliveryAndIret : Prop :=
  (∀ p : ResetParams, (State.resetWith p).interruptsEnabled = true) ∧
  (∀ (s : State) (l : Line), (s.deliver l).interruptsEnabled = false) ∧
  ∀ (i : Instr) (s t : State), exec i s = .next t →
    t.interruptsEnabled = (if i = .iret then true else s.interruptsEnabled) ∧
    ∀ e : Bool, exec i { s with interruptsEnabled := e } =
      .next { t with interruptsEnabled := if i = .iret then true else e }

/-- Only MUL writes `overflow`; other instructions and delivery leave it, and no instruction's effect depends on it
(10_state.md R36). -/
def Obligations.OverflowIsWrittenOnlyByMul : Prop :=
  (∀ (a b : Reg) (s : State), ∃ t, exec (.mul a b) s = .next t ∧
    t.overflow = decide ((s.reg a).toNat * (s.reg b).toNat > 255)) ∧
  (∀ (s : State) (l : Line), (s.deliver l).overflow = s.overflow) ∧
  ∀ (i : Instr) (s t : State), exec i s = .next t →
    (i.mnemonic ≠ .mul → t.overflow = s.overflow) ∧
    ∀ b : Bool, exec i { s with overflow := b } =
      .next { t with overflow := if i.mnemonic = .mul then t.overflow else b }

/-- IR, `overflow` and the global enable are read by no instruction: changing them changes no register, no PC, no
memory cell, no output and no run state that the instruction leaves (10_state.md R40). -/
def Obligations.HiddenStateIsNotReadByInstructions : Prop :=
  ∀ (i : Instr) (s t : State) (x : Byte) (b e : Bool), exec i s = .next t →
    ∃ u, exec i { s with ir := x, overflow := b, interruptsEnabled := e } = .next u ∧
      u.regs = t.regs ∧ u.pc = t.pc ∧ u.mem = t.mem ∧ u.out = t.out ∧ u.run = t.run

/-- In a tick, a pending line is cleared only by its own delivery or by an instruction that writes R6, IRET among
them, and IM changes only by an instruction that writes R5, IRET among them (60_exceptions.md R178). -/
def Obligations.PendingLinesAreClearedOnlyByDeliveryOrAWriteToR6 : Prop :=
  ∀ (opc : OpcodeMap) (s t : State), tick opc s = .next t →
    (∀ l : Line, (s.reg .is).getLsbD l.val = true → (t.reg .is).getLsbD l.val = false →
      s.pendingLine = some l ∨
        ∃ i rest, decodeWith opc s.beginCycle.instrBytes = .ok (i, rest) ∧ .is ∈ writtenRegs i) ∧
    (t.reg .im ≠ s.reg .im →
      ∃ i rest, decodeWith opc s.beginCycle.instrBytes = .ok (i, rest) ∧ .im ∈ writtenRegs i)

/-! ### Frames over all instructions -/

/-- An instruction changes no register but the destination it names, SP for PUSH, POP, CALL and RET, and all eight for
IRET (10_state.md R25). -/
def Obligations.RegistersChangeOnlyWhereTheInstructionSays : Prop :=
  ∀ (i : Instr) (s t : State), exec i s = .next t → OnlyRegsChange (writtenRegs i) s t

/-- An instruction changes no memory cell but the one it stores to: ST at the address in its first register, PUSH and
CALL at the decremented SP (20_memory.md R56). -/
def Obligations.MemoryChangesOnlyAtTheStoredAddress : Prop :=
  ∀ (i : Instr) (s t : State), exec i s = .next t → OnlyCellsChange (s.storedAddresses i) s t

/-- The output stream starts empty and only grows, by one event for PRN and PRA and by none for any other instruction;
no instruction reads it; a tick appends at most one event (10_state.md R39). -/
def Obligations.OutputOnlyGrowsByThePrintInstructions : Prop :=
  (∀ p : ResetParams, (State.resetWith p).out = []) ∧
  (∀ (i : Instr) (s t : State), exec i s = .next t → t.out = s.out ++ s.emitted i ∧
    ∀ o : List OutEvent, exec i { s with out := o } = .next { t with out := o ++ s.emitted i }) ∧
  ∀ (opc : OpcodeMap) (s t : State), tick opc s = .next t → ∃ es, t.out = s.out ++ es ∧ es.length ≤ 1

/-! ### The instructions -/

/-- ADD (41_alu.md R111). -/
def Obligations.AddStoresTheSumModulo256 : Prop :=
  DecodesF2R .add .add ∧ opcDefault .add = 0xA8 ∧
  ∀ (a b : Reg) (s : State), ∃ t, exec (.add a b) s = .next t ∧
    (t.reg a).toNat = ((s.reg a).toNat + (s.reg b).toNat) % 256 ∧ t.pc = s.pc + 3 ∧ t.overflow = s.overflow ∧
    OnlyRegsChange [a] s t ∧ OnlyCellsChange [] s t ∧ t.out = s.out ∧ ControlKept s t

/-- MUL (41_alu.md R112). -/
def Obligations.MulStoresTheProductAndSetsOverflow : Prop :=
  DecodesF2R .mul .mul ∧ opcDefault .mul = 0xAA ∧
  ∀ (a b : Reg) (s : State), ∃ t, exec (.mul a b) s = .next t ∧
    (t.reg a).toNat = ((s.reg a).toNat * (s.reg b).toNat) % 256 ∧
    (t.overflow = true ↔ (s.reg a).toNat * (s.reg b).toNat > 255) ∧ t.pc = s.pc + 3 ∧
    OnlyRegsChange [a] s t ∧ OnlyCellsChange [] s t ∧ t.out = s.out ∧ ControlKept s t

/-- LDI (42_load_store.md R120). -/
def Obligations.LdiLoadsTheImmediate : Prop :=
  DecodesF2I .ldi .ldi ∧ opcDefault .ldi = 0x99 ∧
  ∀ (d : Reg) (imm : Byte) (s : State), ∃ t, exec (.ldi d imm) s = .next t ∧
    t.reg d = imm ∧ t.pc = s.pc + 3 ∧ t.overflow = s.overflow ∧
    OnlyRegsChange [d] s t ∧ OnlyCellsChange [] s t ∧ t.out = s.out ∧ ControlKept s t

/-- LD (42_load_store.md R121). -/
def Obligations.LdLoadsFromTheAddressInTheRegister : Prop :=
  DecodesF2R .ld .ld ∧ opcDefault .ld = 0x98 ∧
  ∀ (d b : Reg) (s : State), ∃ t, exec (.ld d b) s = .next t ∧
    t.reg d = s.load (s.effectiveAddress b) ∧ s.effectiveAddress b = s.reg b ∧ t.pc = s.pc + 3 ∧
    t.overflow = s.overflow ∧
    OnlyRegsChange [d] s t ∧ OnlyCellsChange [] s t ∧ t.out = s.out ∧ ControlKept s t

/-- ST (42_load_store.md R122). -/
def Obligations.StStoresAtTheAddressInTheFirstRegister : Prop :=
  DecodesF2R .st .st ∧ opcDefault .st = 0x9A ∧
  ∀ (a b : Reg) (s : State), ∃ t, exec (.st a b) s = .next t ∧
    t.load (s.effectiveAddress a) = s.reg b ∧ s.effectiveAddress a = s.reg a ∧ t.pc = s.pc + 3 ∧
    t.overflow = s.overflow ∧
    OnlyRegsChange [] s t ∧ OnlyCellsChange [s.effectiveAddress a] s t ∧ t.out = s.out ∧ ControlKept s t

/-- PUSH, of SP too (43_stack.md R130). -/
def Obligations.PushStoresBelowTheStackPointer : Prop :=
  DecodesF1 .push .push ∧ opcDefault .push = 0x4D ∧
  ∀ (a : Reg) (s : State), ∃ t, exec (.push a) s = .next t ∧
    s.decSp.reg .sp = s.reg .sp - 1#8 ∧ t.reg .sp = s.decSp.reg .sp ∧
    t.load (s.decSp.reg .sp) = (if a = .sp then s.reg .sp - 1#8 else s.reg a) ∧
    t.pc = s.pc + 2 ∧ t.overflow = s.overflow ∧
    OnlyRegsChange [.sp] s t ∧ OnlyCellsChange [s.decSp.reg .sp] s t ∧ t.out = s.out ∧ ControlKept s t

/-- POP, into SP too (43_stack.md R131). -/
def Obligations.PopLoadsFromTheStackPointer : Prop :=
  DecodesF1 .pop .pop ∧ opcDefault .pop = 0x4C ∧
  ∀ (d : Reg) (s : State), ∃ t, exec (.pop d) s = .next t ∧
    (d ≠ .sp → t.reg d = s.load (s.reg .sp) ∧ t.reg .sp = s.reg .sp + 1#8) ∧
    (d = .sp → t.reg .sp = s.load (s.reg .sp) + 1#8) ∧
    t.pc = s.pc + 2 ∧ t.overflow = s.overflow ∧
    OnlyRegsChange [d, .sp] s t ∧ OnlyCellsChange [] s t ∧ t.out = s.out ∧ ControlKept s t

/-- JMP (44_control.md R140). -/
def Obligations.JmpSetsPcToTheRegister : Prop :=
  DecodesF1 .jmp .jmp ∧ opcDefault .jmp = 0x50 ∧
  ∀ (a : Reg) (s : State), ∃ t, exec (.jmp a) s = .next t ∧
    t.pc = (s.reg a).toNat ∧ t.overflow = s.overflow ∧
    OnlyRegsChange [] s t ∧ OnlyCellsChange [] s t ∧ t.out = s.out ∧ ControlKept s t

/-- CALL, through SP too: with a return address that is a byte it pushes it and jumps; at 0xFE it halts before any
effect (44_control.md R141). -/
def Obligations.CallPushesTheReturnAddressAndJumps : Prop :=
  DecodesF1 .call .call ∧ opcDefault .call = 0x48 ∧
  ∀ (a : Reg) (s : State),
    (s.pc + 2 ≤ 255 → ∃ t, exec (.call a) s = .next t ∧
      s.decSp.reg .sp = s.reg .sp - 1#8 ∧ t.reg .sp = s.decSp.reg .sp ∧
      (t.load (s.decSp.reg .sp)).toNat = s.pc + 2 ∧
      t.pc = (if a = .sp then s.reg .sp - 1#8 else s.reg a).toNat ∧ t.overflow = s.overflow ∧
      OnlyRegsChange [.sp] s t ∧ OnlyCellsChange [s.decSp.reg .sp] s t ∧ t.out = s.out ∧ ControlKept s t) ∧
    (s.pc + 2 > 255 →
      exec (.call a) s = .next { s with run := .halted (.addressOutOfRange (s.pc + 2)) })

/-- RET (44_control.md R142). -/
def Obligations.RetPopsThePc : Prop :=
  DecodesF0 .ret .ret ∧ opcDefault .ret = 0x09 ∧
  ∀ s : State, ∃ t, exec .ret s = .next t ∧
    t.pc = (s.load (s.reg .sp)).toNat ∧ t.reg .sp = s.reg .sp + 1#8 ∧ t.overflow = s.overflow ∧
    OnlyRegsChange [.sp] s t ∧ OnlyCellsChange [] s t ∧ t.out = s.out ∧ ControlKept s t

/-- HLT: the machine is Halted with reason Hlt, nothing else changes, PC among it, and no later tick or raised line
leaves that state; after the tick that executes it IR holds the opcode of HLT (44_control.md R150). -/
def Obligations.HltHaltsAndLeavesEverythingElse : Prop :=
  DecodesF0 .hlt .hlt ∧ opcDefault .hlt = 0x1B ∧
  ∀ s : State, exec .hlt s = .next { s with run := .halted .hlt } ∧
    (∀ opc : OpcodeMap, tick opc { s with run := .halted .hlt } = .next { s with run := .halted .hlt }) ∧
    (∀ l : Line, raiseInterrupt l.val { s with run := .halted .hlt } = .next { s with run := .halted .hlt }) ∧
    ∀ (opc : OpcodeMap) (t : State), s.run = .running → tick opc s = .next t → t.run = .halted .hlt → t.ir = opc .hlt

/-- PRN (45_output.md R161). -/
def Obligations.PrnEmitsTheRegisterInDecimal : Prop :=
  DecodesF1 .prn .prn ∧ opcDefault .prn = 0x43 ∧
  ∀ (a : Reg) (s : State), ∃ t, exec (.prn a) s = .next t ∧
    t.out = s.out ++ [.dec (s.reg a)] ∧ t.pc = s.pc + 2 ∧ t.overflow = s.overflow ∧
    OnlyRegsChange [] s t ∧ OnlyCellsChange [] s t ∧ ControlKept s t

/-- PRA (45_output.md R162). -/
def Obligations.PraEmitsTheRegisterAsACharacter : Prop :=
  DecodesF1 .pra .pra ∧ opcDefault .pra = 0x42 ∧
  ∀ (a : Reg) (s : State), ∃ t, exec (.pra a) s = .next t ∧
    t.out = s.out ++ [.chr (s.reg a)] ∧ t.pc = s.pc + 2 ∧ t.overflow = s.overflow ∧
    OnlyRegsChange [] s t ∧ OnlyCellsChange [] s t ∧ ControlKept s t

/-- The text of `Dec(v)` is the decimal digits of `v` with no leading zero and then one LF; that of `Chr(v)` is the one
character `v` (45_output.md R160). -/
def Obligations.OutputEventsRenderAsDecimalOrCharacter : Prop :=
  ∀ v : Byte,
    (∃ digits : List Nat, (OutEvent.dec v).render = digits ++ [0x0A] ∧ digits ≠ [] ∧
      (∀ d ∈ digits, 0x30 ≤ d ∧ d ≤ 0x39) ∧ (digits.head? = some 0x30 → digits = [0x30]) ∧
      digits.foldl (fun n d => 10 * n + (d - 0x30)) 0 = v.toNat) ∧
    (OutEvent.chr v).render = [v.toNat]

/-! ### The stack over several instructions -/

/-- PUSH of a register and then POP into it gives back every register, SP among them (43_stack.md R132). -/
def Obligations.PushThenPopRestoresTheRegisters : Prop :=
  ∀ (a : Reg) (s : State), ∃ t u, exec (.push a) s = .next t ∧ exec (.pop a) t = .next u ∧
    u.regs = s.regs

/-- CALL, a subroutine that gives back SP and the cell it points at, and RET: PC is the address after the CALL and SP
is what it was before it (44_control.md R144). -/
def Obligations.CallThenRetReturnsAfterTheCall : Prop :=
  ∀ (a : Reg) (s : State), s.pc + 2 ≤ 255 → ∃ t, exec (.call a) s = .next t ∧
    ∀ h : State, h.reg .sp = t.reg .sp → h.load (t.reg .sp) = t.load (t.reg .sp) →
      ∃ u, exec .ret h = .next u ∧ u.pc = s.pc + 2 ∧ u.reg .sp = s.reg .sp

/-- Any sequence of pushes moves SP down by one each, modulo 256, and writes only the cells it passes; from SP = 0xF8
the first 248 leave the vector table alone and the 249th writes 0xFF (70_reset_and_hazards.md R203, 90_conflicts.md
C1). -/
def Obligations.PushesReachTheVectorTableOnlyByWrapAround : Prop :=
  ∀ (rs : List Reg) (s : State),
    (rs.foldl State.pushReg s).reg .sp = s.reg .sp - BitVec.ofNat 8 rs.length ∧
    (∀ a : Byte, (∀ k, k < rs.length → a ≠ s.reg .sp - BitVec.ofNat 8 (k + 1)) →
      (rs.foldl State.pushReg s).load a = s.load a) ∧
    (s.reg .sp = 0xF8#8 → rs.length ≤ 248 → ∀ a : Byte, 0xF8 ≤ a.toNat →
      (rs.foldl State.pushReg s).load a = s.load a) ∧
    (s.reg .sp = 0xF8#8 → rs.length = 248 → ∀ r : Reg,
      ((rs.foldl State.pushReg s).pushReg r).reg .sp = 0xFF#8 ∧
      ((rs.foldl State.pushReg s).pushReg r).load 0xFF#8 =
        if r = .sp then 0xFF#8 else s.reg r)

/-- A store is seen by the next fetch at its address (20_memory.md R62). -/
def Obligations.StoreIntoCodeIsSeenByTheNextFetch : Prop :=
  ∀ (a b : Reg) (s t u : State), exec (.st a b) s = .next t → u.mem = t.mem → u.pc = (s.reg a).toNat →
    u.fetch.ir = s.reg b ∧ u.instrBytes.head? = some (s.reg b)

/-! ### The host -/

/-- A poke stores one byte and changes nothing else before the first tick, and is refused after it; a tick of a
Running machine ends that phase (20_memory.md R57). That the first tick is told by the model's own field `clockStarted`,
and the value a tick gives that field, are the model's choice (log entry 6). -/
def Obligations.PokesAreAcceptedOnlyBeforeTheFirstTick : Prop :=
  ∀ (opc : OpcodeMap) (s : State) (a v : Byte),
    (s.clockStarted = false → ∃ t, poke a.toNat v s = .next t ∧ t = { s with mem := t.mem } ∧
      t.load a = v ∧ OnlyCellsChange [a] s t) ∧
    (s.clockStarted = true → poke a.toNat v s = .refused .pokeAfterFirstTick) ∧
    (s.run = .running → ∃ t, tick opc s = .next t ∧ t.clockStarted = true)

/-- `raiseInterrupt` sets one bit of IS and changes nothing else; raising a pending line changes nothing; the next tick's
controller step sees it, so that with the enables set it delivers that line or a lower one; a line above 7 is refused;
in Halted nothing changes (60_exceptions.md R176). A timer event raises line 1 (R177). -/
def Obligations.RaisingALineSetsItsPendingBit : Prop :=
  (∀ (s : State) (l : Line), s.run = .running → ∃ t, raiseInterrupt l.val s = .next t ∧
    (∀ j : Line, (t.reg .is).getLsbD j.val = ((s.reg .is).getLsbD j.val || decide (j = l))) ∧
    OnlyRegsChange [.is] s t ∧ t = { s with regs := t.regs } ∧
    ((s.reg .is).getLsbD l.val = true → t = s) ∧
    (s.interruptsEnabled = true → (s.reg .im).getLsbD l.val = true → ∃ j : Line, j ≤ l ∧
      t.interruptControllerStep = t.deliver j)) ∧
  (∀ (s : State) (n : Nat), n > 7 → raiseInterrupt n s = .refused (.noSuchLine n)) ∧
  (∀ (s : State) (l : Line) (r : HaltReason), s.run = .halted r → raiseInterrupt l.val s = .next s) ∧
  ∀ s : State, timerEvent s = raiseInterrupt 1 s

/-! ### Invariants -/

/-- Every tick, from every state that meets the invariant and under every admissible opcode map, keeps it: PC stays 0
to 256, memory canonical, and a halt report true (10_state.md R32, 20_memory.md R50, 60_exceptions.md R170). -/
def Obligations.EveryTickKeepsTheInvariant : Prop :=
  ∀ opc : OpcodeMap, opc.Admissible → ∀ s t : State, s.Inv opc → tick opc s = .next t → t.Inv opc

/-- Every run of host actions, pokes, ticks, raised lines and timer events in any order, from every state that meets
the invariant, keeps it (40_cycle.md R102, 60_exceptions.md R186). -/
def Obligations.EveryHostRunKeepsTheInvariant : Prop :=
  ∀ opc : OpcodeMap, opc.Admissible → ∀ (acts : List HostAction) (s t : State),
    s.Inv opc → hostRun opc acts s = .next t → t.Inv opc
end

