-- ==== Sys2Proof/Laws/Memory.lean ====
section
/-! SUPPORT. Memory as a map: what a read gives after a write, and that writing keeps the canonical form. -/

namespace Sys2Proof.Machine

@[simp] theorem Memory.read_nil (a : Nat) : Memory.read [] a = Config.unlistedByte := rfl

theorem Memory.read_cons (k : Nat) (v : Byte) (m : Memory) (a : Nat) :
    Memory.read ((k, v) :: m) a = if k = a then v else Memory.read m a := rfl

theorem Memory.clear_cons (k : Nat) (w : Byte) (m : Memory) (a : Nat) :
    Memory.clear ((k, w) :: m) a = if k = a then Memory.clear m a else (k, w) :: Memory.clear m a := by
  by_cases h : k = a <;> simp [Memory.clear, h]

theorem Memory.read_clear (m : Memory) (a b : Nat) :
    (m.clear a).read b = if a = b then Config.unlistedByte else m.read b := by
  induction m with
  | nil => simp [Memory.clear]
  | cons c m ih =>
    obtain ⟨k, w⟩ := c
    rw [Memory.clear_cons]
    by_cases hk : k = a
    · subst hk
      simp only [if_true, ih, Memory.read_cons]
      split <;> rfl
    · rw [if_neg hk]
      simp only [Memory.read_cons, ih]
      split
      · subst k; rw [if_neg (Ne.symm hk)]
      · rfl

/-- An inserted cell is read at its address, and nothing else changes, where the memory lists no cell there. -/
theorem Memory.read_insert (m : Memory) (a b : Nat) (v : Byte) (h : ∀ c ∈ m, c.1 ≠ a) :
    (Memory.insert a v m).read b = if a = b then v else m.read b := by
  induction m with
  | nil => rfl
  | cons c m ih =>
    obtain ⟨k, w⟩ := c
    have hk : k ≠ a := h (k, w) (by simp)
    have ih := ih fun c hc => h c (List.mem_cons_of_mem _ hc)
    rw [Memory.insert]
    split
    · rfl
    · simp only [Memory.read_cons, ih]
      split <;> split <;> simp_all

/-- A read gives the last byte written to the address, and a write changes no other address (20_memory.md R55). -/
theorem Memory.read_write (m : Memory) (a b : Nat) (v : Byte) :
    (m.write a v).read b = if a = b then v else m.read b := by
  rw [Memory.write]
  split
  · rw [Memory.read_clear]; simp_all
  · rw [Memory.read_insert _ _ _ _ (by simp [Memory.clear]), Memory.read_clear]
    split <;> rfl

theorem Memory.mem_insert (m : Memory) (a : Nat) (v : Byte) (c : Host.Cell) :
    c ∈ Memory.insert a v m ↔ c = (a, v) ∨ c ∈ m := by
  induction m with
  | nil => simp [Memory.insert]
  | cons d m ih =>
    rw [Memory.insert]
    split
    · simp
    · simp only [List.mem_cons, ih]; tauto

theorem Memory.wf_clear (m : Memory) (a : Nat) (h : m.wf) : (m.clear a).wf :=
  ⟨h.1.filter _, fun c hc => h.2 c (List.mem_of_mem_filter hc)⟩

/-- Inserting keeps the canonical form where the memory lists no cell at the address. -/
theorem Memory.wf_insert (m : Memory) (a : Nat) (v : Byte) (h : m.wf) (ha : a < 256)
    (hv : v ≠ Config.unlistedByte) (hn : ∀ c ∈ m, c.1 ≠ a) : (Memory.insert a v m).wf := by
  refine ⟨?_, fun c hc => ?_⟩
  · induction m with
    | nil => simp [Memory.insert]
    | cons d m ih =>
      obtain ⟨hd, hm⟩ := List.pairwise_cons.1 h.1
      have hda := hn d (by simp)
      rw [Memory.insert]
      split
      · refine List.pairwise_cons.2 ⟨fun c hc => ?_, h.1⟩
        rcases List.mem_cons.1 hc with rfl | hc
        · assumption
        · exact lt_trans ‹_› (hd c hc)
      · refine List.pairwise_cons.2 ⟨fun c hc => ?_, ih ⟨hm, fun c hc => h.2 c (by simp [hc])⟩ fun c hc => hn c (by simp [hc])⟩
        rcases (Memory.mem_insert ..).1 hc with rfl | hc
        · simp only at hda ⊢; omega
        · exact hd c hc
  · rcases (Memory.mem_insert ..).1 hc with rfl | hc
    · exact ⟨ha, hv⟩
    · exact h.2 c hc

/-- Every write keeps the canonical form. -/
theorem Memory.wf_write (m : Memory) (a : Nat) (v : Byte) (h : m.wf) (ha : a < 256) : (m.write a v).wf := by
  rw [Memory.write]
  split
  · exact m.wf_clear a h
  · exact Memory.wf_insert _ _ _ (m.wf_clear a h) ha ‹_› (by simp [Memory.clear])

/-- Reset's memory is canonical. -/
theorem Memory.wf_reset : Memory.wf State.reset.mem := by decide

end Sys2Proof.Machine
end

