-- ==== Sys2Proof/Laws/State.lean ====
section
/-! SUPPORT. What each operation on the state leaves each field: one lemma per field per update, so that no later proof
unfolds a record update. -/

namespace Sys2Proof.Machine

/-! ### `writeReg` -/

@[simp] theorem State.writeReg_pc (s : State) (r : Reg) (v : Int) : (s.writeReg r v).pc = s.pc := rfl
@[simp] theorem State.writeReg_ir (s : State) (r : Reg) (v : Int) : (s.writeReg r v).ir = s.ir := rfl
@[simp] theorem State.writeReg_interruptsEnabled (s : State) (r : Reg) (v : Int) : (s.writeReg r v).interruptsEnabled = s.interruptsEnabled :=
  rfl
@[simp] theorem State.writeReg_overflow (s : State) (r : Reg) (v : Int) : (s.writeReg r v).overflow = s.overflow :=
  rfl
@[simp] theorem State.writeReg_run (s : State) (r : Reg) (v : Int) : (s.writeReg r v).run = s.run := rfl
@[simp] theorem State.writeReg_mem (s : State) (r : Reg) (v : Int) : (s.writeReg r v).mem = s.mem := rfl
@[simp] theorem State.writeReg_out (s : State) (r : Reg) (v : Int) : (s.writeReg r v).out = s.out := rfl
@[simp] theorem State.writeReg_clockStarted (s : State) (r : Reg) (v : Int) : (s.writeReg r v).clockStarted = s.clockStarted :=
  rfl
@[simp] theorem State.writeReg_load (s : State) (r : Reg) (v : Int) (b : Byte) : (s.writeReg r v).load b = s.load b := rfl

/-! ### `decSp` -/

@[simp] theorem State.decSp_pc (s : State) : (s.decSp).pc = s.pc := rfl
@[simp] theorem State.decSp_ir (s : State) : (s.decSp).ir = s.ir := rfl
@[simp] theorem State.decSp_interruptsEnabled (s : State) : (s.decSp).interruptsEnabled = s.interruptsEnabled := rfl
@[simp] theorem State.decSp_overflow (s : State) : (s.decSp).overflow = s.overflow := rfl
@[simp] theorem State.decSp_run (s : State) : (s.decSp).run = s.run := rfl
@[simp] theorem State.decSp_mem (s : State) : (s.decSp).mem = s.mem := rfl
@[simp] theorem State.decSp_out (s : State) : (s.decSp).out = s.out := rfl
@[simp] theorem State.decSp_clockStarted (s : State) : (s.decSp).clockStarted = s.clockStarted := rfl
@[simp] theorem State.decSp_load (s : State) (b : Byte) : (s.decSp).load b = s.load b := rfl

/-! ### `incSp` -/

@[simp] theorem State.incSp_pc (s : State) : (s.incSp).pc = s.pc := rfl
@[simp] theorem State.incSp_ir (s : State) : (s.incSp).ir = s.ir := rfl
@[simp] theorem State.incSp_interruptsEnabled (s : State) : (s.incSp).interruptsEnabled = s.interruptsEnabled := rfl
@[simp] theorem State.incSp_overflow (s : State) : (s.incSp).overflow = s.overflow := rfl
@[simp] theorem State.incSp_run (s : State) : (s.incSp).run = s.run := rfl
@[simp] theorem State.incSp_mem (s : State) : (s.incSp).mem = s.mem := rfl
@[simp] theorem State.incSp_out (s : State) : (s.incSp).out = s.out := rfl
@[simp] theorem State.incSp_clockStarted (s : State) : (s.incSp).clockStarted = s.clockStarted := rfl
@[simp] theorem State.incSp_load (s : State) (b : Byte) : (s.incSp).load b = s.load b := rfl

/-! ### `store` -/

@[simp] theorem State.store_reg (s : State) (a v : Byte) (q : Reg) : (s.store a v).reg q = s.reg q := rfl
@[simp] theorem State.store_regs (s : State) (a v : Byte) : (s.store a v).regs = s.regs := rfl
@[simp] theorem State.store_pc (s : State) (a v : Byte) : (s.store a v).pc = s.pc := rfl
@[simp] theorem State.store_ir (s : State) (a v : Byte) : (s.store a v).ir = s.ir := rfl
@[simp] theorem State.store_interruptsEnabled (s : State) (a v : Byte) : (s.store a v).interruptsEnabled = s.interruptsEnabled :=
  rfl
@[simp] theorem State.store_overflow (s : State) (a v : Byte) : (s.store a v).overflow = s.overflow := rfl
@[simp] theorem State.store_run (s : State) (a v : Byte) : (s.store a v).run = s.run := rfl
@[simp] theorem State.store_out (s : State) (a v : Byte) : (s.store a v).out = s.out := rfl
@[simp] theorem State.store_clockStarted (s : State) (a v : Byte) : (s.store a v).clockStarted = s.clockStarted := rfl

/-! ### `advance` -/

@[simp] theorem State.advance_reg (s : State) (n : Nat) (q : Reg) : (s.advance n).reg q = s.reg q := rfl
@[simp] theorem State.advance_regs (s : State) (n : Nat) : (s.advance n).regs = s.regs := rfl
@[simp] theorem State.advance_pc (s : State) (n : Nat) : (s.advance n).pc = s.pc + n := rfl
@[simp] theorem State.advance_ir (s : State) (n : Nat) : (s.advance n).ir = s.ir := rfl
@[simp] theorem State.advance_interruptsEnabled (s : State) (n : Nat) : (s.advance n).interruptsEnabled = s.interruptsEnabled :=
  rfl
@[simp] theorem State.advance_overflow (s : State) (n : Nat) : (s.advance n).overflow = s.overflow := rfl
@[simp] theorem State.advance_run (s : State) (n : Nat) : (s.advance n).run = s.run := rfl
@[simp] theorem State.advance_mem (s : State) (n : Nat) : (s.advance n).mem = s.mem := rfl
@[simp] theorem State.advance_out (s : State) (n : Nat) : (s.advance n).out = s.out := rfl
@[simp] theorem State.advance_clockStarted (s : State) (n : Nat) : (s.advance n).clockStarted = s.clockStarted := rfl
@[simp] theorem State.advance_load (s : State) (n : Nat) (b : Byte) : (s.advance n).load b = s.load b := rfl

/-! ### `jumpTo` -/

@[simp] theorem State.jumpTo_reg (s : State) (a : Byte) (q : Reg) : (s.jumpTo a).reg q = s.reg q := rfl
@[simp] theorem State.jumpTo_regs (s : State) (a : Byte) : (s.jumpTo a).regs = s.regs := rfl
@[simp] theorem State.jumpTo_pc (s : State) (a : Byte) : (s.jumpTo a).pc = a.toNat := rfl
@[simp] theorem State.jumpTo_ir (s : State) (a : Byte) : (s.jumpTo a).ir = s.ir := rfl
@[simp] theorem State.jumpTo_interruptsEnabled (s : State) (a : Byte) : (s.jumpTo a).interruptsEnabled = s.interruptsEnabled :=
  rfl
@[simp] theorem State.jumpTo_overflow (s : State) (a : Byte) : (s.jumpTo a).overflow = s.overflow := rfl
@[simp] theorem State.jumpTo_run (s : State) (a : Byte) : (s.jumpTo a).run = s.run := rfl
@[simp] theorem State.jumpTo_mem (s : State) (a : Byte) : (s.jumpTo a).mem = s.mem := rfl
@[simp] theorem State.jumpTo_out (s : State) (a : Byte) : (s.jumpTo a).out = s.out := rfl
@[simp] theorem State.jumpTo_clockStarted (s : State) (a : Byte) : (s.jumpTo a).clockStarted = s.clockStarted := rfl
@[simp] theorem State.jumpTo_load (s : State) (a : Byte) (b : Byte) : (s.jumpTo a).load b = s.load b := rfl

/-! ### `emit` -/

@[simp] theorem State.emit_reg (s : State) (e : OutEvent) (q : Reg) : (s.emit e).reg q = s.reg q := rfl
@[simp] theorem State.emit_regs (s : State) (e : OutEvent) : (s.emit e).regs = s.regs := rfl
@[simp] theorem State.emit_pc (s : State) (e : OutEvent) : (s.emit e).pc = s.pc := rfl
@[simp] theorem State.emit_ir (s : State) (e : OutEvent) : (s.emit e).ir = s.ir := rfl
@[simp] theorem State.emit_interruptsEnabled (s : State) (e : OutEvent) : (s.emit e).interruptsEnabled = s.interruptsEnabled :=
  rfl
@[simp] theorem State.emit_overflow (s : State) (e : OutEvent) : (s.emit e).overflow = s.overflow := rfl
@[simp] theorem State.emit_run (s : State) (e : OutEvent) : (s.emit e).run = s.run := rfl
@[simp] theorem State.emit_mem (s : State) (e : OutEvent) : (s.emit e).mem = s.mem := rfl
@[simp] theorem State.emit_out (s : State) (e : OutEvent) : (s.emit e).out = s.out ++ [e] := rfl
@[simp] theorem State.emit_clockStarted (s : State) (e : OutEvent) : (s.emit e).clockStarted = s.clockStarted := rfl
@[simp] theorem State.emit_load (s : State) (e : OutEvent) (b : Byte) : (s.emit e).load b = s.load b := rfl

/-! ### `halt` -/

@[simp] theorem State.halt_reg (s : State) (r : HaltReason) (q : Reg) : (s.halt r).reg q = s.reg q := rfl
@[simp] theorem State.halt_regs (s : State) (r : HaltReason) : (s.halt r).regs = s.regs := rfl
@[simp] theorem State.halt_pc (s : State) (r : HaltReason) : (s.halt r).pc = s.pc := rfl
@[simp] theorem State.halt_ir (s : State) (r : HaltReason) : (s.halt r).ir = s.ir := rfl
@[simp] theorem State.halt_interruptsEnabled (s : State) (r : HaltReason) : (s.halt r).interruptsEnabled = s.interruptsEnabled :=
  rfl
@[simp] theorem State.halt_overflow (s : State) (r : HaltReason) : (s.halt r).overflow = s.overflow := rfl
@[simp] theorem State.halt_run (s : State) (r : HaltReason) : (s.halt r).run = .halted r := rfl
@[simp] theorem State.halt_mem (s : State) (r : HaltReason) : (s.halt r).mem = s.mem := rfl
@[simp] theorem State.halt_out (s : State) (r : HaltReason) : (s.halt r).out = s.out := rfl
@[simp] theorem State.halt_clockStarted (s : State) (r : HaltReason) : (s.halt r).clockStarted = s.clockStarted := rfl
@[simp] theorem State.halt_load (s : State) (r : HaltReason) (b : Byte) : (s.halt r).load b = s.load b := rfl

/-! ### `setOverflow` -/

@[simp] theorem State.setOverflow_reg (s : State) (n : Nat) (q : Reg) : (s.setOverflow n).reg q = s.reg q := rfl
@[simp] theorem State.setOverflow_regs (s : State) (n : Nat) : (s.setOverflow n).regs = s.regs := rfl
@[simp] theorem State.setOverflow_pc (s : State) (n : Nat) : (s.setOverflow n).pc = s.pc := rfl
@[simp] theorem State.setOverflow_ir (s : State) (n : Nat) : (s.setOverflow n).ir = s.ir := rfl
@[simp] theorem State.setOverflow_interruptsEnabled (s : State) (n : Nat) : (s.setOverflow n).interruptsEnabled = s.interruptsEnabled :=
  rfl
@[simp] theorem State.setOverflow_overflow (s : State) (n : Nat) : (s.setOverflow n).overflow = decide (n > 255) :=
  rfl
@[simp] theorem State.setOverflow_run (s : State) (n : Nat) : (s.setOverflow n).run = s.run := rfl
@[simp] theorem State.setOverflow_mem (s : State) (n : Nat) : (s.setOverflow n).mem = s.mem := rfl
@[simp] theorem State.setOverflow_out (s : State) (n : Nat) : (s.setOverflow n).out = s.out := rfl
@[simp] theorem State.setOverflow_clockStarted (s : State) (n : Nat) : (s.setOverflow n).clockStarted = s.clockStarted :=
  rfl
@[simp] theorem State.setOverflow_load (s : State) (n : Nat) (b : Byte) : (s.setOverflow n).load b = s.load b := rfl

/-! ### `fetch` -/

@[simp] theorem State.fetch_reg (s : State) (q : Reg) : (s.fetch).reg q = s.reg q := rfl
@[simp] theorem State.fetch_regs (s : State) : (s.fetch).regs = s.regs := rfl
@[simp] theorem State.fetch_pc (s : State) : (s.fetch).pc = s.pc := rfl
@[simp] theorem State.fetch_ir (s : State) : (s.fetch).ir = s.mem.read s.pc := rfl
@[simp] theorem State.fetch_interruptsEnabled (s : State) : (s.fetch).interruptsEnabled = s.interruptsEnabled := rfl
@[simp] theorem State.fetch_overflow (s : State) : (s.fetch).overflow = s.overflow := rfl
@[simp] theorem State.fetch_run (s : State) : (s.fetch).run = s.run := rfl
@[simp] theorem State.fetch_mem (s : State) : (s.fetch).mem = s.mem := rfl
@[simp] theorem State.fetch_out (s : State) : (s.fetch).out = s.out := rfl
@[simp] theorem State.fetch_clockStarted (s : State) : (s.fetch).clockStarted = s.clockStarted := rfl
@[simp] theorem State.fetch_load (s : State) (b : Byte) : (s.fetch).load b = s.load b := rfl

/-! ### `push` -/

@[simp] theorem State.push_pc (s : State) (f : State → Byte) : (s.push f).pc = s.pc := rfl
@[simp] theorem State.push_ir (s : State) (f : State → Byte) : (s.push f).ir = s.ir := rfl
@[simp] theorem State.push_interruptsEnabled (s : State) (f : State → Byte) : (s.push f).interruptsEnabled = s.interruptsEnabled :=
  rfl
@[simp] theorem State.push_overflow (s : State) (f : State → Byte) : (s.push f).overflow = s.overflow := rfl
@[simp] theorem State.push_run (s : State) (f : State → Byte) : (s.push f).run = s.run := rfl
@[simp] theorem State.push_out (s : State) (f : State → Byte) : (s.push f).out = s.out := rfl
@[simp] theorem State.push_clockStarted (s : State) (f : State → Byte) : (s.push f).clockStarted = s.clockStarted :=
  rfl

/-! ### `pushReg` -/

@[simp] theorem State.pushReg_pc (s : State) (r : Reg) : (s.pushReg r).pc = s.pc := rfl
@[simp] theorem State.pushReg_ir (s : State) (r : Reg) : (s.pushReg r).ir = s.ir := rfl
@[simp] theorem State.pushReg_interruptsEnabled (s : State) (r : Reg) : (s.pushReg r).interruptsEnabled = s.interruptsEnabled :=
  rfl
@[simp] theorem State.pushReg_overflow (s : State) (r : Reg) : (s.pushReg r).overflow = s.overflow := rfl
@[simp] theorem State.pushReg_run (s : State) (r : Reg) : (s.pushReg r).run = s.run := rfl
@[simp] theorem State.pushReg_out (s : State) (r : Reg) : (s.pushReg r).out = s.out := rfl
@[simp] theorem State.pushReg_clockStarted (s : State) (r : Reg) : (s.pushReg r).clockStarted = s.clockStarted := rfl

/-! ### `popReg` -/

@[simp] theorem State.popReg_pc (s : State) (r : Reg) : (s.popReg r).pc = s.pc := rfl
@[simp] theorem State.popReg_ir (s : State) (r : Reg) : (s.popReg r).ir = s.ir := rfl
@[simp] theorem State.popReg_interruptsEnabled (s : State) (r : Reg) : (s.popReg r).interruptsEnabled = s.interruptsEnabled :=
  rfl
@[simp] theorem State.popReg_overflow (s : State) (r : Reg) : (s.popReg r).overflow = s.overflow := rfl
@[simp] theorem State.popReg_run (s : State) (r : Reg) : (s.popReg r).run = s.run := rfl
@[simp] theorem State.popReg_mem (s : State) (r : Reg) : (s.popReg r).mem = s.mem := rfl
@[simp] theorem State.popReg_out (s : State) (r : Reg) : (s.popReg r).out = s.out := rfl
@[simp] theorem State.popReg_clockStarted (s : State) (r : Reg) : (s.popReg r).clockStarted = s.clockStarted := rfl
@[simp] theorem State.popReg_load (s : State) (r : Reg) (b : Byte) : (s.popReg r).load b = s.load b := rfl

/-! ### `popPc` -/

@[simp] theorem State.popPc_ir (s : State) : (s.popPc).ir = s.ir := rfl
@[simp] theorem State.popPc_interruptsEnabled (s : State) : (s.popPc).interruptsEnabled = s.interruptsEnabled := rfl
@[simp] theorem State.popPc_overflow (s : State) : (s.popPc).overflow = s.overflow := rfl
@[simp] theorem State.popPc_run (s : State) : (s.popPc).run = s.run := rfl
@[simp] theorem State.popPc_mem (s : State) : (s.popPc).mem = s.mem := rfl
@[simp] theorem State.popPc_out (s : State) : (s.popPc).out = s.out := rfl
@[simp] theorem State.popPc_clockStarted (s : State) : (s.popPc).clockStarted = s.clockStarted := rfl
@[simp] theorem State.popPc_load (s : State) (b : Byte) : (s.popPc).load b = s.load b := rfl

/-! ### `acknowledge` -/

@[simp] theorem State.acknowledge_pc (s : State) (i : Line) : (s.acknowledge i).pc = s.pc := rfl
@[simp] theorem State.acknowledge_ir (s : State) (i : Line) : (s.acknowledge i).ir = s.ir := rfl
@[simp] theorem State.acknowledge_interruptsEnabled (s : State) (i : Line) : (s.acknowledge i).interruptsEnabled = s.interruptsEnabled :=
  rfl
@[simp] theorem State.acknowledge_overflow (s : State) (i : Line) : (s.acknowledge i).overflow = s.overflow := rfl
@[simp] theorem State.acknowledge_run (s : State) (i : Line) : (s.acknowledge i).run = s.run := rfl
@[simp] theorem State.acknowledge_mem (s : State) (i : Line) : (s.acknowledge i).mem = s.mem := rfl
@[simp] theorem State.acknowledge_out (s : State) (i : Line) : (s.acknowledge i).out = s.out := rfl
@[simp] theorem State.acknowledge_clockStarted (s : State) (i : Line) : (s.acknowledge i).clockStarted = s.clockStarted :=
  rfl
@[simp] theorem State.acknowledge_load (s : State) (i : Line) (b : Byte) : (s.acknowledge i).load b = s.load b := rfl

/-! ### `saveContext` -/

@[simp] theorem State.saveContext_pc (s : State) : (s.saveContext).pc = s.pc := by simp [State.saveContext, Reg.all]
@[simp] theorem State.saveContext_ir (s : State) : (s.saveContext).ir = s.ir := by simp [State.saveContext, Reg.all]
@[simp] theorem State.saveContext_interruptsEnabled (s : State) : (s.saveContext).interruptsEnabled = s.interruptsEnabled :=
  by simp [State.saveContext, Reg.all]
@[simp] theorem State.saveContext_overflow (s : State) : (s.saveContext).overflow = s.overflow :=
  by simp [State.saveContext, Reg.all]
@[simp] theorem State.saveContext_run (s : State) : (s.saveContext).run = s.run :=
  by simp [State.saveContext, Reg.all]
@[simp] theorem State.saveContext_out (s : State) : (s.saveContext).out = s.out :=
  by simp [State.saveContext, Reg.all]
@[simp] theorem State.saveContext_clockStarted (s : State) : (s.saveContext).clockStarted = s.clockStarted :=
  by simp [State.saveContext, Reg.all]

/-! ### `deliver` -/

@[simp] theorem State.deliver_ir (s : State) (i : Line) : (s.deliver i).ir = s.ir := by simp [State.deliver]
@[simp] theorem State.deliver_interruptsEnabled (s : State) (i : Line) : (s.deliver i).interruptsEnabled = false :=
  by simp [State.deliver]
@[simp] theorem State.deliver_overflow (s : State) (i : Line) : (s.deliver i).overflow = s.overflow :=
  by simp [State.deliver]
@[simp] theorem State.deliver_run (s : State) (i : Line) : (s.deliver i).run = s.run := by simp [State.deliver]
@[simp] theorem State.deliver_out (s : State) (i : Line) : (s.deliver i).out = s.out := by simp [State.deliver]
@[simp] theorem State.deliver_clockStarted (s : State) (i : Line) : (s.deliver i).clockStarted = s.clockStarted :=
  by simp [State.deliver]

/-! ### `restoreContext` -/

@[simp] theorem State.restoreContext_ir (s : State) : (s.restoreContext).ir = s.ir :=
  by simp [State.restoreContext, Reg.all]
@[simp] theorem State.restoreContext_interruptsEnabled (s : State) : (s.restoreContext).interruptsEnabled = true :=
  by simp [State.restoreContext, Reg.all]
@[simp] theorem State.restoreContext_overflow (s : State) : (s.restoreContext).overflow = s.overflow :=
  by simp [State.restoreContext, Reg.all]
@[simp] theorem State.restoreContext_run (s : State) : (s.restoreContext).run = s.run :=
  by simp [State.restoreContext, Reg.all]
@[simp] theorem State.restoreContext_mem (s : State) : (s.restoreContext).mem = s.mem :=
  by simp [State.restoreContext, Reg.all]
@[simp] theorem State.restoreContext_out (s : State) : (s.restoreContext).out = s.out :=
  by simp [State.restoreContext, Reg.all]
@[simp] theorem State.restoreContext_clockStarted (s : State) : (s.restoreContext).clockStarted = s.clockStarted :=
  by simp [State.restoreContext, Reg.all]
@[simp] theorem State.restoreContext_load (s : State) (b : Byte) : (s.restoreContext).load b = s.load b := by
  simp [State.load]

/-! ### Views of a state written as a record update -/

@[simp] theorem State.regs_get (s : State) (q : Reg) : s.regs.get q = s.reg q := rfl
@[simp] theorem State.reg_mk (f : RegFile) (pc : Nat) (ir : Byte) (ie ov : Bool) (run : RunState) (m : Memory)
    (out : List OutEvent) (c : Bool) (q : Reg) : (State.mk f pc ir ie ov run m out c).reg q = f.get q := rfl
@[simp] theorem State.mem_read (s : State) (b : Byte) : s.mem.read b.toNat = s.load b := rfl
@[simp] theorem State.load_mk (f : RegFile) (pc : Nat) (ir : Byte) (ie ov : Bool) (run : RunState) (m : Memory)
    (out : List OutEvent) (c : Bool) (b : Byte) : (State.mk f pc ir ie ov run m out c).load b = m.read b.toNat := rfl

end Sys2Proof.Machine
end

