-- ==== Sys2Proof/Laws/Ops.lean ====
section
/-! SUPPORT. What each shared operation does to the registers and to memory, said once: the later proofs cite these
lemmas and do not unfold the operations. -/

namespace Sys2Proof

/-! ### Narrowing an exact result -/

theorem narrow_toNat (v : Int) : (narrow v).toNat = (v % 256).toNat := by
  simp [narrow, BitVec.toNat_ofInt]

@[simp] theorem narrow_natCast (n : Nat) : narrow n = BitVec.ofNat 8 n := by
  simp [narrow]

theorem narrow_byte (b : Byte) : narrow b.toNat = b := by simp

@[simp] theorem narrow_pred (b : Byte) : narrow ((b.toNat : Int) - 1) = b - 1#8 := by
  apply BitVec.eq_of_toNat_eq
  rw [narrow_toNat, BitVec.toNat_sub]
  have := b.isLt
  simp only [BitVec.toNat_ofNat]
  omega

@[simp] theorem narrow_succ (b : Byte) : narrow ((b.toNat : Int) + 1) = b + 1#8 := by
  apply BitVec.eq_of_toNat_eq
  rw [narrow_toNat, BitVec.toNat_add]
  simp only [BitVec.toNat_ofNat]
  omega

namespace Machine

/-! ### Registers -/

theorem RegFile.get_set (f : RegFile) (r q : Reg) (v : Byte) :
    (f.set r v).get q = if q = r then v else f.get q := by
  cases r <;> cases q <;> rfl

/-- A register write stores the value reduced and changes no other register (10_state.md R22). -/
@[simp] theorem State.reg_writeReg (s : State) (r q : Reg) (v : Int) :
    (s.writeReg r v).reg q = if q = r then narrow v else s.reg q :=
  RegFile.get_set ..

@[simp] theorem State.reg_decSp (s : State) (q : Reg) :
    s.decSp.reg q = if q = .sp then s.reg .sp - 1#8 else s.reg q := by
  simp [State.decSp]

@[simp] theorem State.reg_incSp (s : State) (q : Reg) :
    s.incSp.reg q = if q = .sp then s.reg .sp + 1#8 else s.reg q := by
  simp [State.incSp]

/-! ### Memory -/

/-- A store is read back at its address and changes no other (20_memory.md R55). -/
@[simp] theorem State.load_store (s : State) (a b v : Byte) :
    (s.store a v).load b = if b = a then v else s.load b := by
  rw [State.load, State.store, Memory.read_write]
  by_cases h : b = a
  · simp [h]
  · rw [if_neg h, if_neg fun h' => h (BitVec.eq_of_toNat_eq h').symm, State.load]

theorem State.store_wf (s : State) (a v : Byte) (h : s.mem.wf) : (s.store a v).mem.wf :=
  Memory.wf_write _ _ _ h a.isLt

/-! ### Stack -/

@[simp] theorem State.reg_push (s : State) (f : State → Byte) (q : Reg) :
    (s.push f).reg q = if q = .sp then s.reg .sp - 1#8 else s.reg q := by
  simp [State.push]

/-- A push writes one cell, the one below SP, with the value read after the decrement (43_stack.md R130). -/
@[simp] theorem State.load_push (s : State) (f : State → Byte) (b : Byte) :
    (s.push f).load b = if b = s.reg .sp - 1#8 then f s.decSp else s.load b := by
  simp [State.push]

theorem State.push_wf (s : State) (f : State → Byte) (h : s.mem.wf) : (s.push f).mem.wf :=
  State.store_wf _ _ _ h

@[simp] theorem State.reg_pushReg (s : State) (r q : Reg) :
    (s.pushReg r).reg q = if q = .sp then s.reg .sp - 1#8 else s.reg q := by
  simp [State.pushReg]

@[simp] theorem State.load_pushReg (s : State) (r : Reg) (b : Byte) :
    (s.pushReg r).load b = if b = s.reg .sp - 1#8 then (if r = .sp then s.reg .sp - 1#8 else s.reg r) else s.load b := by
  simp [State.pushReg]

theorem State.pushReg_wf (s : State) (r : Reg) (h : s.mem.wf) : (s.pushReg r).mem.wf :=
  State.push_wf _ _ h

/-- A pop loads the register, then increments SP, which for SP itself is the value just loaded (43_stack.md R131). -/
@[simp] theorem State.reg_popReg (s : State) (r q : Reg) :
    (s.popReg r).reg q =
      if q = .sp then (if r = .sp then s.load (s.reg .sp) else s.reg .sp) + 1#8
      else if q = r then s.load (s.reg .sp) else s.reg q := by
  simp [State.popReg, eq_comm]

@[simp] theorem State.popPc_pc (s : State) : s.popPc.pc = (s.load (s.reg .sp)).toNat := rfl

@[simp] theorem State.reg_popPc (s : State) (q : Reg) :
    s.popPc.reg q = if q = .sp then s.reg .sp + 1#8 else s.reg q := by
  simp [State.popPc]

/-! ### Interrupts -/

@[simp] theorem State.reg_acknowledge (s : State) (i : Line) (q : Reg) :
    (s.acknowledge i).reg q = if q = .is then s.reg .is &&& ~~~lineBit i else s.reg q := by
  simp only [State.acknowledge, State.reg_writeReg, narrow_byte]

/-- The context switch in moves SP down by nine and changes no other register. -/
theorem State.reg_saveContext (s : State) (q : Reg) :
    s.saveContext.reg q = if q = .sp then s.reg .sp - 9#8 else s.reg q := by
  simp only [State.saveContext, Reg.all, List.foldl_cons, List.foldl_nil, State.reg_pushReg, State.reg_push, if_true]
  split
  · bv_omega
  · rfl

theorem byte_sub_succ (x : Byte) (n : Nat) : x - BitVec.ofNat 8 n - 1#8 = x - BitVec.ofNat 8 (n + 1) := by
  rw [BitVec.ofNat_add]; bv_omega

/-- The nine cells the context switch in writes: PC, then R0 to R7, with SP as each push finds it. -/
theorem State.load_saveContext (s : State) (b : Byte) : s.saveContext.load b =
    if b = s.reg .sp - 9#8 then s.reg .sp - 9#8 else
    if b = s.reg .sp - 8#8 then s.reg .r6 else
    if b = s.reg .sp - 7#8 then s.reg .r5 else
    if b = s.reg .sp - 6#8 then s.reg .r4 else
    if b = s.reg .sp - 5#8 then s.reg .r3 else
    if b = s.reg .sp - 4#8 then s.reg .r2 else
    if b = s.reg .sp - 3#8 then s.reg .r1 else
    if b = s.reg .sp - 2#8 then s.reg .r0 else
    if b = s.reg .sp - 1#8 then BitVec.ofNat 8 s.pc else s.load b := by
  simp only [State.saveContext, Reg.all, List.foldl_cons, List.foldl_nil, State.load_pushReg, State.reg_pushReg,
    State.load_push, State.reg_push, if_true, if_false, reduceCtorEq, State.decSp_pc, byte_sub_succ, Nat.reduceAdd]

/-- A delivery changes IS and SP among the registers. -/
theorem State.reg_deliver (s : State) (i : Line) (q : Reg) :
    (s.deliver i).reg q =
      if q = .sp then s.reg .sp - 9#8 else if q = .is then s.reg .is &&& ~~~lineBit i else s.reg q := by
  simp [State.deliver, State.reg_saveContext]

/-- A delivery writes what the context switch in writes, after the acknowledgement. -/
theorem State.load_deliver (s : State) (i : Line) (b : Byte) :
    (s.deliver i).load b = (s.acknowledge i).saveContext.load b := by
  simp [State.deliver, State.load_saveContext]

theorem State.saveContext_wf (s : State) (h : s.mem.wf) : s.saveContext.mem.wf := by
  simp only [State.saveContext, Reg.all, List.foldl]
  repeat apply State.pushReg_wf
  exact State.push_wf _ _ h

theorem State.deliver_wf (s : State) (i : Line) (h : s.mem.wf) : (s.deliver i).mem.wf := by
  simp only [State.deliver, State.jumpTo_mem]
  exact State.saveContext_wf _ h

/-- The vector read comes after the pushes, and gives a byte (60_exceptions.md R174, step 8). -/
theorem State.deliver_pc (s : State) (i : Line) :
    (s.deliver i).pc = ((s.deliver i).load (vectorAddress i)).toNat := by
  simp [State.deliver]

/-- The controller either does nothing or delivers the pending line (60_exceptions.md R172). -/
theorem State.interruptControllerStep_cases (s : State) :
    (s.pendingLine = none ∧ s.interruptControllerStep = s) ∨
      ∃ i, s.pendingLine = some i ∧ s.interruptControllerStep = s.deliver i := by
  unfold State.interruptControllerStep
  cases s.pendingLine <;> simp

/-! ### Fields that the stack and the context switch do not read -/

/-- A change that each pop commutes with, any sequence of pops commutes with. -/
theorem State.foldl_popReg_comm (g : State → State) (hg : ∀ s r, (g s).popReg r = g (s.popReg r)) (rs : List Reg)
    (s : State) : rs.foldl State.popReg (g s) = g (rs.foldl State.popReg s) := by
  induction rs generalizing s with
  | nil => rfl
  | cons r rs ih => rw [List.foldl_cons, hg, ih, List.foldl_cons]

/-- A change that each push commutes with, any sequence of pushes commutes with. -/
theorem State.foldl_pushReg_comm (g : State → State) (hg : ∀ s r, (g s).pushReg r = g (s.pushReg r)) (rs : List Reg)
    (s : State) : rs.foldl State.pushReg (g s) = g (rs.foldl State.pushReg s) := by
  induction rs generalizing s with
  | nil => rfl
  | cons r rs ih => rw [List.foldl_cons, hg, ih, List.foldl_cons]

/-- The context switch out reads neither IR nor a flag, and leaves IR and `overflow` as they are. -/
theorem State.restoreContext_hidden (s : State) (x : Byte) (b e : Bool) :
    { s with ir := x, overflow := b, interruptsEnabled := e }.restoreContext =
      { s.restoreContext with ir := x, overflow := b } := by
  rw [State.restoreContext, State.restoreContext,
    State.foldl_popReg_comm (fun s => { s with ir := x, overflow := b, interruptsEnabled := e }) fun _ _ => rfl]
  generalize Reg.all.reverse.foldl State.popReg s = u
  rfl

/-- The context switch out neither reads nor changes the output stream. -/
theorem State.restoreContext_out_update (s : State) (o : List OutEvent) :
    { s with out := o }.restoreContext = { s.restoreContext with out := o } := by
  rw [State.restoreContext, State.restoreContext, State.foldl_popReg_comm (fun s => { s with out := o }) fun _ _ => rfl]
  generalize Reg.all.reverse.foldl State.popReg s = u
  rfl

end Machine
end Sys2Proof
end

