-- ==== Sys2Proof/Laws/Cycle.lean ====
section
/-! SUPPORT. The controller's step, the beginning of a cycle and the tick: each said once, as what it leaves and as the
cases it can end in. -/

namespace Sys2Proof.Machine

/-! ### The controller's step -/

@[simp] theorem State.interruptControllerStep_run (s : State) : s.interruptControllerStep.run = s.run := by
  rcases s.interruptControllerStep_cases with ⟨_, h⟩ | ⟨i, _, h⟩ <;> simp [h]

@[simp] theorem State.interruptControllerStep_ir (s : State) : s.interruptControllerStep.ir = s.ir := by
  rcases s.interruptControllerStep_cases with ⟨_, h⟩ | ⟨i, _, h⟩ <;> simp [h]

@[simp] theorem State.interruptControllerStep_overflow (s : State) :
    s.interruptControllerStep.overflow = s.overflow := by
  rcases s.interruptControllerStep_cases with ⟨_, h⟩ | ⟨i, _, h⟩ <;> simp [h]

@[simp] theorem State.interruptControllerStep_out (s : State) : s.interruptControllerStep.out = s.out := by
  rcases s.interruptControllerStep_cases with ⟨_, h⟩ | ⟨i, _, h⟩ <;> simp [h]

@[simp] theorem State.interruptControllerStep_clockStarted (s : State) :
    s.interruptControllerStep.clockStarted = s.clockStarted := by
  rcases s.interruptControllerStep_cases with ⟨_, h⟩ | ⟨i, _, h⟩ <;> simp [h]

/-- A delivery leaves a byte in PC (60_exceptions.md R175). -/
theorem State.deliver_pc_le (s : State) (i : Line) : (s.deliver i).pc ≤ 255 := by
  rw [State.deliver_pc]
  exact Nat.le_of_lt_succ (BitVec.isLt _)

/-- A PC in range stays in range through the controller's step (40_cycle.md R93). -/
theorem State.interruptControllerStep_pc_le (s : State) (h : s.pc ≤ 255) : s.interruptControllerStep.pc ≤ 255 := by
  rcases s.interruptControllerStep_cases with ⟨_, h'⟩ | ⟨i, _, h'⟩ <;> rw [h']
  · exact h
  · exact s.deliver_pc_le i

theorem State.interruptControllerStep_wf (s : State) (h : s.mem.wf) : s.interruptControllerStep.mem.wf := by
  rcases s.interruptControllerStep_cases with ⟨_, h'⟩ | ⟨i, _, h'⟩ <;> rw [h']
  · exact h
  · exact s.deliver_wf i h

/-- The host's phase plays no part in a delivery. -/
theorem State.deliver_clockStarted_update (s : State) (c : Bool) (i : Line) :
    { s with clockStarted := c }.deliver i = { s.deliver i with clockStarted := c } := by
  have push : ∀ (t : State) (f : State → Byte), f { t.decSp with clockStarted := c } = f t.decSp →
      { t with clockStarted := c }.push f = { t.push f with clockStarted := c } := fun t f hf => by
    have hd : { t with clockStarted := c }.decSp = { t.decSp with clockStarted := c } := rfl
    simp only [State.push, hd, hf]
    rfl
  have pushReg : ∀ (t : State) (r : Reg),
      { t with clockStarted := c }.pushReg r = { t.pushReg r with clockStarted := c } := fun t r => push t _ rfl
  have save : ∀ t : State, { t with clockStarted := c }.saveContext = { t.saveContext with clockStarted := c } :=
    fun t => by
      simp only [State.saveContext]
      rw [push t _ rfl]
      simp only [Reg.all, List.foldl, pushReg]
  have ack : ∀ t : State,
      { t with clockStarted := c }.acknowledge i = { t.acknowledge i with clockStarted := c } := fun _ => rfl
  have saved : ({ { s with clockStarted := c } with interruptsEnabled := false }.acknowledge i).saveContext =
      { ({ s with interruptsEnabled := false }.acknowledge i).saveContext with clockStarted := c } :=
    (congrArg State.saveContext (ack { s with interruptsEnabled := false })).trans (save _)
  simp only [State.deliver, saved]
  rfl

theorem State.interruptControllerStep_clockStarted_update (s : State) (c : Bool) :
    { s with clockStarted := c }.interruptControllerStep = { s.interruptControllerStep with clockStarted := c } := by
  have hp : { s with clockStarted := c }.pendingLine = s.pendingLine := rfl
  unfold State.interruptControllerStep
  rw [hp]
  cases s.pendingLine with
  | none => rfl
  | some i => exact s.deliver_clockStarted_update c i

/-! ### The beginning of a cycle -/

/-- The state in which the instruction is decoded: the controller's step, IR and the host's phase. -/
theorem State.beginCycle_eq (s : State) : s.beginCycle = { s.interruptControllerStep with
    ir := s.interruptControllerStep.mem.read s.interruptControllerStep.pc, clockStarted := true } := by
  rw [State.beginCycle, State.interruptControllerStep_clockStarted_update]
  rfl

@[simp] theorem State.beginCycle_pc (s : State) : s.beginCycle.pc = s.interruptControllerStep.pc := by
  rw [State.beginCycle_eq]
@[simp] theorem State.beginCycle_regs (s : State) : s.beginCycle.regs = s.interruptControllerStep.regs := by
  rw [State.beginCycle_eq]
@[simp] theorem State.beginCycle_reg (s : State) (q : Reg) :
    s.beginCycle.reg q = s.interruptControllerStep.reg q := by
  rw [State.beginCycle_eq]; rfl
@[simp] theorem State.beginCycle_mem (s : State) : s.beginCycle.mem = s.interruptControllerStep.mem := by
  rw [State.beginCycle_eq]
@[simp] theorem State.beginCycle_ir (s : State) :
    s.beginCycle.ir = s.interruptControllerStep.mem.read s.interruptControllerStep.pc := by
  rw [State.beginCycle_eq]
@[simp] theorem State.beginCycle_run (s : State) : s.beginCycle.run = s.run := by
  rw [State.beginCycle_eq]; simp
@[simp] theorem State.beginCycle_out (s : State) : s.beginCycle.out = s.out := by
  rw [State.beginCycle_eq]; simp
@[simp] theorem State.beginCycle_clockStarted (s : State) : s.beginCycle.clockStarted = true := by
  rw [State.beginCycle_eq]
@[simp] theorem State.beginCycle_interruptsEnabled (s : State) :
    s.beginCycle.interruptsEnabled = s.interruptControllerStep.interruptsEnabled := by
  rw [State.beginCycle_eq]

theorem State.beginCycle_pc_le (s : State) (h : s.pc ≤ 255) : s.beginCycle.pc ≤ 255 := by
  rw [State.beginCycle_pc]; exact s.interruptControllerStep_pc_le h

/-- The bytes the decoder sees: the opcode, and the two after it as far as they exist. -/
theorem State.instrBytes_eq (s : State) (h : s.pc ≤ 255) :
    s.instrBytes = s.mem.read s.pc ::
      if s.pc + 1 > 255 then [] else s.mem.read (s.pc + 1) ::
        if s.pc + 2 > 255 then [] else [s.mem.read (s.pc + 2)] := by
  have h0 : ¬ s.pc > 255 := by omega
  by_cases h1 : s.pc + 1 > 255
  · have h2 : s.pc + 2 > 255 := by omega
    simp [State.instrBytes, State.memRead, h0, h1, h2, Except.toOption]
  · by_cases h2 : s.pc + 2 > 255 <;>
      simp [State.instrBytes, State.memRead, h0, h1, h2, Except.toOption]

/-- The bytes at PC depend on PC and memory only. -/
theorem State.instrBytes_congr {s t : State} (hp : s.pc = t.pc) (hm : s.mem = t.mem) : s.instrBytes = t.instrBytes := by
  simp [State.instrBytes, State.memRead, hp, hm]

/-! ### The tick -/

/-- Everything a tick can be: nothing in Halted, the fault of PC = 256, the fault of undecodable bytes, or the decoded
instruction (40_cycle.md R90). -/
theorem tick_cases (opc : OpcodeMap) (s : State) :
    (∃ r, s.run = .halted r ∧ tick opc s = .next s) ∨
    (s.run = .running ∧ s.pc > 255 ∧
      tick opc s = .next ({ s with clockStarted := true }.halt (.addressOutOfRange s.pc))) ∨
    (s.run = .running ∧ s.pc ≤ 255 ∧ ∃ e, decodeWith opc s.beginCycle.instrBytes = .error e ∧
      tick opc s = .next (s.beginCycle.halt (s.beginCycle.decodeFault e))) ∨
    (s.run = .running ∧ s.pc ≤ 255 ∧ ∃ i rest, decodeWith opc s.beginCycle.instrBytes = .ok (i, rest) ∧
      tick opc s = exec i s.beginCycle) := by
  unfold tick State.frontEnd
  cases hr : s.run with
  | halted r => exact .inl ⟨r, rfl, rfl⟩
  | running =>
    by_cases hp : s.pc > 255
    · exact .inr (.inl ⟨rfl, hp, by simp [hp]⟩)
    · have hp' : s.pc ≤ 255 := by omega
      cases hd : decodeWith opc s.beginCycle.instrBytes with
      | error e => exact .inr (.inr (.inl ⟨rfl, hp', e, rfl, by simp [hp]⟩))
      | ok p => exact .inr (.inr (.inr ⟨rfl, hp', p.1, p.2, rfl, by simp [hp]⟩))

end Sys2Proof.Machine
end

