-- ==== Sys2Proof/Laws/Decode.lean ====
section
/-! SUPPORT. The dispatch table, the operand readers and the register bytes, one lemma each. -/

namespace Sys2Proof

theorem Mnemonic.mem_all (m : Mnemonic) : m ∈ Mnemonic.all := by cases m <;> decide

/-- A byte that dispatches to a mnemonic is that mnemonic's opcode, under any map. -/
theorem opc_of_dispatch {opc : OpcodeMap} {b : Byte} {m : Mnemonic} (h : dispatch opc b = some m) : opc m = b := by
  simpa using List.find?_some h

/-- A byte that dispatches to nothing is no mnemonic's opcode. -/
theorem dispatch_none {opc : OpcodeMap} {b : Byte} (h : dispatch opc b = none) (m : Mnemonic) : opc m ≠ b := by
  simpa using List.find?_eq_none.1 h m m.mem_all

/-- Under an admissible map an opcode dispatches to its own mnemonic. -/
theorem dispatch_opc {opc : OpcodeMap} (h : opc.Admissible) (m : Mnemonic) : dispatch opc (opc m) = some m := by
  cases hd : dispatch opc (opc m) with
  | none => exact absurd rfl (dispatch_none hd m)
  | some n => rw [h.1 n m (opc_of_dispatch hd)]

@[simp] theorem Reg.ofByte?_toByte (r : Reg) : Reg.ofByte? r.toByte = some r := by cases r <;> rfl

theorem Reg.toByte_le (r : Reg) : r.toByte.toNat ≤ 7 := by cases r <;> decide

/-- Exactly the bytes 0 to 7 name a register (30_encoding.md R74). -/
theorem Reg.ofByte?_eq_none {b : Byte} : Reg.ofByte? b = none ↔ 7 < b.toNat := by
  simp [Reg.ofByte?, Reg.all]; omega

theorem Reg.toByte_of_ofByte? {b : Byte} {r : Reg} (h : Reg.ofByte? b = some r) : r.toByte = b := by
  have hb : b.toNat < 8 := by
    by_contra hn
    have := Reg.ofByte?_eq_none.2 (show 7 < b.toNat by omega)
    simp_all
  obtain ⟨n, hn⟩ : ∃ n : Fin 8, b = BitVec.ofNat 8 n.val := ⟨⟨b.toNat, hb⟩, by simp⟩
  subst hn
  revert h; revert r; revert n; decide

@[simp] theorem takeByte_nil (j : Nat) : takeByte j [] = .error (.missingByte j) := rfl
@[simp] theorem takeByte_cons (j : Nat) (b : Byte) (bs : List Byte) : takeByte j (b :: bs) = .ok (b, bs) := rfl
@[simp] theorem takeReg_nil (j : Nat) : takeReg j [] = .error (.missingByte j) := rfl

/-- A register operand is the byte's register, or the rejection of the byte (30_encoding.md R74). -/
theorem takeReg_cons (j : Nat) (b : Byte) (bs : List Byte) :
    takeReg j (b :: bs) = match Reg.ofByte? b with
      | none => .error (.badRegister b)
      | some r => .ok (r, bs) := rfl

@[simp] theorem takeReg_toByte (j : Nat) (r : Reg) (bs : List Byte) : takeReg j (r.toByte :: bs) = .ok (r, bs) := by
  rw [takeReg_cons, Reg.ofByte?_toByte]

/-- What a register operand can be: nothing there, a byte above 7, or a register's own byte. -/
theorem takeReg_cases (j : Nat) (bs : List Byte) :
    (bs = [] ∧ takeReg j bs = .error (.missingByte j)) ∨
    (∃ b tl, bs = b :: tl ∧ 7 < b.toNat ∧ takeReg j bs = .error (.badRegister b)) ∨
    ∃ r tl, bs = Reg.toByte r :: tl ∧ takeReg j bs = .ok (r, tl) := by
  cases bs with
  | nil => exact .inl ⟨rfl, rfl⟩
  | cons b tl =>
    cases h : Reg.ofByte? b with
    | none => exact .inr (.inl ⟨b, tl, rfl, Reg.ofByte?_eq_none.1 h, by rw [takeReg_cons, h]⟩)
    | some r => exact .inr (.inr ⟨r, tl, by rw [Reg.toByte_of_ofByte? h], by rw [takeReg_cons, h]⟩)

theorem takeF1_eq (build : Reg → Instr) (bs : List Byte) :
    takeF1 build bs = match takeReg 1 bs with
      | .error e => .error e
      | .ok (r, tl) => .ok (build r, tl) := by
  unfold takeF1
  cases takeReg 1 bs <;> rfl

theorem takeF2R_eq (build : Reg → Reg → Instr) (bs : List Byte) :
    takeF2R build bs = match takeReg 1 bs with
      | .error e => .error e
      | .ok (a, tl) => match takeReg 2 tl with
        | .error e => .error e
        | .ok (b, tl) => .ok (build a b, tl) := by
  unfold takeF2R
  cases takeReg 1 bs with
  | error e => rfl
  | ok p =>
    show (takeReg 2 p.2 >>= _) = _
    cases h : takeReg 2 p.2 <;> simp only [h] <;> rfl

theorem takeF2I_eq (build : Reg → Byte → Instr) (bs : List Byte) :
    takeF2I build bs = match takeReg 1 bs with
      | .error e => .error e
      | .ok (d, tl) => match takeByte 2 tl with
        | .error e => .error e
        | .ok (imm, tl) => .ok (build d imm, tl) := by
  unfold takeF2I
  cases takeReg 1 bs with
  | error e => rfl
  | ok p =>
    show (takeByte 2 p.2 >>= _) = _
    cases h : takeByte 2 p.2 <;> simp only [h] <;> rfl

/-- The decoder on an opcode byte that dispatches. -/
theorem decodeWith_cons {opc : OpcodeMap} {op : Byte} {m : Mnemonic} (h : dispatch opc op = some m) (bs : List Byte) :
    decodeWith opc (op :: bs) = decodeOperands m bs := by
  simp [decodeWith, h]

/-- The decoder under an admissible map, on an opcode. -/
theorem decodeWith_opc {opc : OpcodeMap} (h : opc.Admissible) (m : Mnemonic) (bs : List Byte) :
    decodeWith opc (opc m :: bs) = decodeOperands m bs :=
  decodeWith_cons (dispatch_opc h m) bs

end Sys2Proof
end

