-- ==== Sys2Proof/Laws/PerInstr.lean ====
section
/-! SUPPORT. What holds of each instruction as syntax, one lemma per constructor: its encoding has the width and the
operand bytes of its format, and its operand bytes are read back as they were. -/

namespace Sys2Proof.Laws

/-- The encoding is as long as the table says and its operand bytes are ones its format admits. -/
def EncodesInFormat.Statement (i : Instr) : Prop :=
  (∀ opc : OpcodeMap, (encodeWith opc i).length = i.width) ∧
    operandsWellFormed i.mnemonic.operandKinds i.operandBytes = true

theorem EncodesInFormat.hlt : EncodesInFormat.Statement .hlt := ⟨fun _ => rfl, rfl⟩
theorem EncodesInFormat.ldi (d : Reg) (imm : Byte) : EncodesInFormat.Statement (.ldi d imm) :=
  ⟨fun _ => rfl, by cases d <;> rfl⟩
theorem EncodesInFormat.mul (a b : Reg) : EncodesInFormat.Statement (.mul a b) :=
  ⟨fun _ => rfl, by cases a <;> cases b <;> rfl⟩
theorem EncodesInFormat.add (a b : Reg) : EncodesInFormat.Statement (.add a b) :=
  ⟨fun _ => rfl, by cases a <;> cases b <;> rfl⟩
theorem EncodesInFormat.prn (a : Reg) : EncodesInFormat.Statement (.prn a) := ⟨fun _ => rfl, by cases a <;> rfl⟩
theorem EncodesInFormat.pra (a : Reg) : EncodesInFormat.Statement (.pra a) := ⟨fun _ => rfl, by cases a <;> rfl⟩
theorem EncodesInFormat.push (a : Reg) : EncodesInFormat.Statement (.push a) := ⟨fun _ => rfl, by cases a <;> rfl⟩
theorem EncodesInFormat.pop (d : Reg) : EncodesInFormat.Statement (.pop d) := ⟨fun _ => rfl, by cases d <;> rfl⟩
theorem EncodesInFormat.call (a : Reg) : EncodesInFormat.Statement (.call a) := ⟨fun _ => rfl, by cases a <;> rfl⟩
theorem EncodesInFormat.ret : EncodesInFormat.Statement .ret := ⟨fun _ => rfl, rfl⟩
theorem EncodesInFormat.jmp (a : Reg) : EncodesInFormat.Statement (.jmp a) := ⟨fun _ => rfl, by cases a <;> rfl⟩
theorem EncodesInFormat.st (a b : Reg) : EncodesInFormat.Statement (.st a b) :=
  ⟨fun _ => rfl, by cases a <;> cases b <;> rfl⟩
theorem EncodesInFormat.ld (d b : Reg) : EncodesInFormat.Statement (.ld d b) :=
  ⟨fun _ => rfl, by cases d <;> cases b <;> rfl⟩
theorem EncodesInFormat.iret : EncodesInFormat.Statement .iret := ⟨fun _ => rfl, rfl⟩

/-- The operand readers give back the instruction from its own operand bytes, whatever follows. -/
def OperandsReadBack.Statement (i : Instr) : Prop :=
  ∀ rest : List Byte, decodeOperands i.mnemonic (i.operandBytes ++ rest) = .ok (i, rest)

theorem OperandsReadBack.hlt : OperandsReadBack.Statement .hlt := fun _ => rfl
theorem OperandsReadBack.ldi (d : Reg) (imm : Byte) : OperandsReadBack.Statement (.ldi d imm) := fun rest => by
  simp [Instr.mnemonic, Instr.operandBytes, decodeOperands, takeF2I_eq]
theorem OperandsReadBack.mul (a b : Reg) : OperandsReadBack.Statement (.mul a b) := fun rest => by
  simp [Instr.mnemonic, Instr.operandBytes, decodeOperands, takeF2R_eq]
theorem OperandsReadBack.add (a b : Reg) : OperandsReadBack.Statement (.add a b) := fun rest => by
  simp [Instr.mnemonic, Instr.operandBytes, decodeOperands, takeF2R_eq]
theorem OperandsReadBack.prn (a : Reg) : OperandsReadBack.Statement (.prn a) := fun rest => by
  simp [Instr.mnemonic, Instr.operandBytes, decodeOperands, takeF1_eq]
theorem OperandsReadBack.pra (a : Reg) : OperandsReadBack.Statement (.pra a) := fun rest => by
  simp [Instr.mnemonic, Instr.operandBytes, decodeOperands, takeF1_eq]
theorem OperandsReadBack.push (a : Reg) : OperandsReadBack.Statement (.push a) := fun rest => by
  simp [Instr.mnemonic, Instr.operandBytes, decodeOperands, takeF1_eq]
theorem OperandsReadBack.pop (d : Reg) : OperandsReadBack.Statement (.pop d) := fun rest => by
  simp [Instr.mnemonic, Instr.operandBytes, decodeOperands, takeF1_eq]
theorem OperandsReadBack.call (a : Reg) : OperandsReadBack.Statement (.call a) := fun rest => by
  simp [Instr.mnemonic, Instr.operandBytes, decodeOperands, takeF1_eq]
theorem OperandsReadBack.ret : OperandsReadBack.Statement .ret := fun _ => rfl
theorem OperandsReadBack.jmp (a : Reg) : OperandsReadBack.Statement (.jmp a) := fun rest => by
  simp [Instr.mnemonic, Instr.operandBytes, decodeOperands, takeF1_eq]
theorem OperandsReadBack.st (a b : Reg) : OperandsReadBack.Statement (.st a b) := fun rest => by
  simp [Instr.mnemonic, Instr.operandBytes, decodeOperands, takeF2R_eq]
theorem OperandsReadBack.ld (d b : Reg) : OperandsReadBack.Statement (.ld d b) := fun rest => by
  simp [Instr.mnemonic, Instr.operandBytes, decodeOperands, takeF2R_eq]
theorem OperandsReadBack.iret : OperandsReadBack.Statement .iret := fun _ => rfl

end Sys2Proof.Laws
end

