-- ==== Sys2Proof/Tests/Slice0.lean ====
section
/-! SUPPORT. The model's own tests: the checks of WellFormed.lean, each instruction's word, one or two single steps for
each instruction, and for each statement with hypotheses a case that meets them. Expected values are those of
spec/95_test_vectors.md (the vector is named) or are worked out by hand from the rule named. -/

namespace Sys2Proof.Machine

/-- A state with one register changed. -/
def State.setTo (s : State) (r : Reg) (v : Byte) : State := s.writeReg r v.toNat

end Sys2Proof.Machine

namespace Sys2Proof.Tests

open Sys2Proof.Machine

/-! ### Helpers -/

/-- What a field holds after an outcome that is a next state. -/
def after {α : Type} (o : Outcome) (f : State → α) : Option α :=
  match o with
  | .next t => some (f t)
  | .fault _ => none
  | .refused _ => none

/-- The spec's start state S0 with the given bytes at the given address and PC there (95_test_vectors.md). -/
def code (p : Nat) (bs : List Byte) : State := { State.reset with pc := p }.storeBytes p bs

/-- The default map with HLT bound to 0x01: another admissible map. -/
def otherMap : OpcodeMap := fun m => if m = .hlt then 0x01 else opcDefault m

/-! ### The checks of WellFormed.lean refuse ill-formed terms -/

theorem test_two_mnemonics_on_one_byte_refused : ¬OpcodeMap.Admissible fun _ => 0x10 :=
  fun h => absurd (h.1 .hlt .ldi rfl) (by decide)

theorem test_mnemonic_on_0xFF_refused : ¬OpcodeMap.Admissible fun m => if m = .hlt then 0xFF else opcDefault m :=
  fun h => h.2 .hlt rfl

theorem test_unmapped_opcode_refused : bytesWellFormed opcDefault [0x00] = false := by decide
theorem test_register_byte_8_refused : bytesWellFormed opcDefault [0x43, 0x08] = false := by decide
theorem test_second_register_byte_255_refused : bytesWellFormed opcDefault [0xA8, 0x00, 0xFF] = false := by decide
theorem test_missing_operand_refused : bytesWellFormed opcDefault [0x99, 0x00] = false := by decide
theorem test_extra_byte_refused : bytesWellFormed opcDefault [0x1B, 0x00] = false := by decide
theorem test_no_bytes_refused : bytesWellFormed opcDefault [] = false := by decide
theorem test_ldi_with_any_immediate_accepted : bytesWellFormed opcDefault [0x99, 0x07, 0xFF] = true := by decide

/-! ### Each instruction's word, written from 30_encoding.md R72 and R77 -/

theorem test_decode_hlt : decode [0x1B, 0xFF] = .ok (.hlt, [0xFF]) := by rfl
theorem test_decode_ldi : decode [0x99, 0x03, 0xFF] = .ok (.ldi .r3 0xFF, []) := by rfl
theorem test_decode_mul : decode [0xAA, 0x02, 0x05] = .ok (.mul .r2 .r5, []) := by rfl
theorem test_decode_add : decode [0xA8, 0x07, 0x00] = .ok (.add .r7 .r0, []) := by rfl
theorem test_decode_prn : decode [0x43, 0x01] = .ok (.prn .r1, []) := by rfl
theorem test_decode_pra : decode [0x42, 0x02] = .ok (.pra .r2, []) := by rfl
theorem test_decode_push : decode [0x4D, 0x07] = .ok (.push .r7, []) := by rfl
theorem test_decode_pop : decode [0x4C, 0x04] = .ok (.pop .r4, []) := by rfl
theorem test_decode_call : decode [0x48, 0x06] = .ok (.call .r6, []) := by rfl
theorem test_decode_ret : decode [0x09] = .ok (.ret, []) := by rfl
theorem test_decode_jmp : decode [0x50, 0x03] = .ok (.jmp .r3, []) := by rfl
theorem test_decode_st : decode [0x9A, 0x00, 0x01] = .ok (.st .r0 .r1, []) := by rfl
theorem test_decode_ld : decode [0x98, 0x03, 0x02] = .ok (.ld .r3 .r2, []) := by rfl
theorem test_decode_iret : decode [0x0B] = .ok (.iret, []) := by rfl
theorem test_decode_rejects_the_first_bad_operand : decode [0xA8, 0x09, 0x0A] = .error (.badRegister 0x09) := by rfl
theorem test_decode_rejects_a_missing_operand : decode [0x9A, 0x01] = .error (.missingByte 2) := by rfl
theorem test_decode_under_another_map : decodeWith otherMap [0x01] = .ok (.hlt, []) := by rfl
/-- The table's numbering: the opcode is bits 7..0, the second byte bits 15..8, the third bits 23..16. -/
theorem test_decodeTableWord_st : decodeTableWord 24 0x01009A = some (.st .r0 .r1) := by rfl
theorem test_decodeTableWord_short_row : decodeTableWord 8 0x7777A8 = some (.add .r0 .r0) := by rfl
theorem test_assembler_reads_the_source_example :
    readProgram ['L', 'D', 'I', ' ', 'R', '0', ',', '5', '6', ';', ' ', 'M', 'U', 'L', ' ', 'R', '0', ',', ' ', 'R', '1',
      ';', 'H', 'L', 'T'] = some [.ldi .r0 56, .mul .r0 .r1, .hlt] := by decide +kernel
theorem test_assembler_reads_hexadecimal :
    readInstr ['L', 'D', 'I', ' ', 'R', '7', ',', ' ', '0', 'x', 'f', '8'] = some (.ldi .r7 0xF8) := by decide +kernel

/-! ### Single steps -/

/-- V-ALU-1. -/
theorem test_add_wraps : after (exec (.add .r0 .r1) ((State.reset.setTo .r0 200).setTo .r1 100))
    (fun t => (t.reg .r0, t.reg .r1, t.overflow, t.pc)) = some (44, 100, false, 3) := by decide
/-- V-ALU-4: ADD leaves `overflow`. -/
theorem test_add_keeps_overflow : after (exec (.add .r0 .r0) { State.reset.setTo .r0 130 with overflow := true })
    (fun t => (t.reg .r0, t.overflow)) = some (4, true) := by decide
/-- V-ALU-8. -/
theorem test_mul_overflows : after (exec (.mul .r0 .r1) ((State.reset.setTo .r0 255).setTo .r1 255))
    (fun t => (t.reg .r0, t.overflow)) = some (1, true) := by decide
/-- V-ALU-10: MUL clears `overflow`. -/
theorem test_mul_clears_overflow :
    after (exec (.mul .r0 .r1) { (State.reset.setTo .r0 2).setTo .r1 3 with overflow := true })
      (fun t => (t.reg .r0, t.overflow)) = some (6, false) := by decide
/-- V-LS-2. -/
theorem test_ldi_sets_sp : after (step (code 0 [0x99, 0x07, 0x80])) (fun t => (t.reg .sp, t.pc, t.ir)) =
    some (0x80, 3, 0x99) := by decide
/-- V-LS-10: the last byte at 0xFF leaves PC = 256. -/
theorem test_ldi_at_the_top : after (step (code 0xFD [0x99, 0x00, 0x05])) (fun t => (t.reg .r0, t.pc)) =
    some (5, 256) := by decide
/-- V-LS-6: the address is read before the write. -/
theorem test_ld_into_its_address_register :
    after (exec (.ld .r2 .r2) ((State.reset.setTo .r2 0x80).store 0x80 7)) (fun t => t.reg .r2) = some 7 := by decide
/-- V-LS-7: the first register holds the address. -/
theorem test_st_address_comes_first :
    after (exec (.st .r0 .r1) ((State.reset.setTo .r0 0x80).setTo .r1 7)) (fun t => (t.load 0x80, t.load 7)) =
      some (7, 0) := by decide
/-- V-SK-2: PUSH R7 pushes the decremented SP. -/
theorem test_push_sp : after (exec (.push .r7) State.reset) (fun t => (t.reg .sp, t.load 0xF7)) =
    some (0xF7, 0xF7) := by decide
/-- V-SK-4: SP wraps and vector 7 is overwritten. -/
theorem test_push_wraps : after (exec (.push .r0) ((State.reset.setTo .sp 0).setTo .r0 0x55))
    (fun t => (t.reg .sp, t.load 0xFF)) = some (0xFF, 0x55) := by decide
/-- V-SK-3: POP R7 increments the value just loaded. -/
theorem test_pop_sp : after (exec (.pop .r7) ((State.reset.setTo .sp 0xF7).store 0xF7 0x40)) (fun t => t.reg .sp) =
    some 0x41 := by decide
/-- V-SK-5. -/
theorem test_pop_wraps : after (exec (.pop .r0) ((State.reset.setTo .sp 0xFF).store 0xFF 0x66))
    (fun t => (t.reg .r0, t.reg .sp)) = some (0x66, 0) := by decide
/-- V-CT-1. -/
theorem test_jmp : after (exec (.jmp .r3) (State.reset.setTo .r3 21)) (fun t => (t.pc, t.reg .sp)) =
    some (21, 0xF8) := by decide
/-- V-CT-4: CALL R7 jumps to the decremented SP. -/
theorem test_call_sp : after (exec (.call .r7) { State.reset with pc := 0x0A })
    (fun t => (t.reg .sp, t.load 0xF7, t.pc)) = some (0xF7, 0x0C, 0xF7) := by decide
/-- V-CT-5: no effect where the return address is 256. -/
theorem test_call_at_0xFE : after (step (code 0xFE [0x48, 0x00])) (fun t => (t.run, t.pc, t.reg .sp, t.load 0xF7)) =
    some (.halted (.addressOutOfRange 256), 0xFE, 0xF8, 0) := by decide
/-- V-CT-7. -/
theorem test_ret_on_the_empty_stack : after (exec .ret (State.reset.store 0xF8 0x30)) (fun t => (t.pc, t.reg .sp)) =
    some (0x30, 0xF9) := by decide
/-- V-CT-10: IRET with no delivery, the loaded SP addressing the pops after it. -/
theorem test_iret_without_delivery :
    after (step ({ (code 0x10 [0x0B]).storeBytes 0xF8 [0xF8, 1, 2, 3, 4, 5, 6, 7] with
      interruptsEnabled := false }.store 0 0x20))
      (fun t => (t.reg .sp, t.reg .r6, t.reg .r1, t.reg .r0, t.pc, t.interruptsEnabled)) =
      some (0x01, 1, 6, 7, 0x20, true) := by decide
/-- V-CT-9. -/
theorem test_hlt : after (step (code 0x0B [0x1B])) (fun t => (t.run, t.pc, t.ir)) =
    some (.halted .hlt, 0x0B, 0x1B) := by decide
/-- V-OUT-2 and its text "255" and LF. -/
theorem test_prn : after (exec (.prn .r1) (State.reset.setTo .r1 255)) (fun t => (t.out, t.outputText)) =
    some ([.dec 255], [0x32, 0x35, 0x35, 0x0A]) := by decide
/-- V-OUT-4: one LF, no terminator added. -/
theorem test_pra : after (exec (.pra .r2) (State.reset.setTo .r2 10)) (fun t => (t.out, t.outputText, t.pc)) =
    some ([.chr 10], [0x0A], 2) := by decide

/-! ### The cycle -/

/-- V-CY-2: PC = 256 is met before the interrupt check. -/
theorem test_pc_256 : after (step { (State.reset.setTo .im 1).setTo .is 1 with pc := 256 })
    (fun t => (t.run, t.reg .is, t.ir)) = some (.halted (.addressOutOfRange 256), 1, 0) := by decide
/-- V-CY-4: operand 1's value is checked before operand 2's address. -/
theorem test_operand_order : after (step (code 0xFE [0xA8, 0x09])) (fun t => t.run) =
    some (.halted (.invalidRegister 0xFE 0xA8 9)) := by decide
/-- V-CY-5. -/
theorem test_operand_past_the_end : after (step (code 0xFE [0xA8, 0x01])) (fun t => (t.run, t.ir)) =
    some (.halted (.addressOutOfRange 0x100), 0xA8) := by decide
/-- V-CY-7: a delivery stays when the handler's first byte is unmapped. -/
theorem test_delivery_stays :
    after (step ((((State.reset.setTo .im 1).setTo .is 1).store 0xF8 0x50).store 0x50 0xFF))
      (fun t => (t.reg .sp, t.load 0xEF, t.reg .is, t.interruptsEnabled, t.pc, t.run)) =
      some (0xEF, 0xEF, 0, false, 0x50, .halted (.invalidOpcode 0x50 0xFF)) := by decide
/-- V-INT-1: the lowest line first, the other stays pending. -/
theorem test_lowest_line : ((State.reset.setTo .im 0xFF).setTo .is 6).interruptControllerStep.reg .is = 4 := by decide
/-- W4: the nine bytes of the source's scenario 4. -/
theorem test_delivery_pushes_nine_bytes :
    (({ (State.reset.setTo .im 2).setTo .is 2 with pc := 0 }.store 0xF9 40).interruptControllerStep.mem, (0 : Nat)) =
      ([(0xEF, 0xEF), (0xF1, 2), (0xF9, 40)], 0) := by decide
/-- V-CY-9, V-CY-8, V-CY-10. -/
theorem test_raise : after (raiseInterrupt 3 State.reset) (fun t => t.reg .is) = some 8 := by decide
theorem test_raise_when_halted : after (raiseInterrupt 3 (State.reset.halt .hlt)) (fun t => t.reg .is) = some 0 := by
  decide
theorem test_raise_line_8 : raiseInterrupt 8 State.reset = .refused (.noSuchLine 8) := by rfl
theorem test_reset_then_step_of_empty_memory :
    after (step State.reset) (fun t => t.run) = some (.halted (.invalidOpcode 0 0)) := by decide

/-! ### Witnesses: for each statement with hypotheses, a case that meets them all, at a boundary value of each clause -/

/-- For every statement over admissible maps: the default map is one. -/
theorem witness_admissible : opcDefault.Admissible := by
  refine ⟨fun m n h => ?_, fun m => by cases m <;> decide⟩
  cases m <;> cases n <;> first | rfl | exact absurd h (by decide)

/-- And a map that is not the default one. -/
theorem witness_another_admissible : otherMap.Admissible := by
  refine ⟨fun m n h => ?_, fun m => by cases m <;> decide⟩
  cases m <;> cases n <;> first | rfl | exact absurd h (by decide)

/-- The format clauses: the lowest byte that names no register, and the highest register's byte. -/
theorem witness_formats : (7 < (8 : Byte).toNat ∧ 7 < (0xFF : Byte).toNat) ∧ Reg.r7.toByte = 7 := by decide

theorem witness_ConstructionMeetsTheInvariant : Memory.wf [(0, 1), (255, 0xFF)] := by decide

theorem witness_FirstTick_delivers :
    let p : ResetParams := { Config.resetParams with im := 0x80, is := 0xC0 }
    p.is &&& p.im ≠ 0 ∧ (p.is &&& p.im).getLsbD 7 = true := by decide

theorem witness_FirstTick_fetches : Config.resetParams.is &&& Config.resetParams.im = 0 := by decide

theorem witness_MemoryAccesses : 256 > 255 ∧ 255 ≤ 255 ∧ (254 : Nat) ≠ 255 := by decide

theorem witness_CanonicalMemories :
    Memory.wf ((Memory.write [] 255 1).write 0 2) ∧ Memory.wf ((Memory.write [] 0 2).write 255 1) ∧
      (Memory.write [] 255 1).write 0 2 = (Memory.write [] 0 2).write 255 1 := by decide

theorem witness_EncodeOfDecode : decodeWith opcDefault [0x99, 0x07, 0xFF, 0x00] = .ok (.ldi .r7 0xFF, [0x00]) := by rfl

theorem witness_HaltedIsTerminal :
    (State.reset.halt .hlt).run = .halted .hlt ∧
      ∀ act ∈ [HostAction.tick, .timer, .raiseInterrupt 0, .raiseInterrupt 7], act.isEvent = true := by decide

theorem witness_PcPastTheEnd_at_256 : ({ State.reset with pc := 256 } : State).run = .running ∧
    ({ State.reset with pc := 256 } : State).pc = 256 ∧ (State.reset.halt .hlt).run = .halted .hlt := by decide

/-- The third clause: an instruction whose last byte is at 0xFF. -/
theorem witness_PcPastTheEnd_arrives : (code 0xFD [0x99, 0x00, 0x05]).pc ≤ 255 ∧
    after (step (code 0xFD [0x99, 0x00, 0x05])) (fun t => t.pc) = some 256 := by decide

theorem witness_UnmappedOpcode : (code 255 [0xFF]).run = .running ∧ (code 255 [0xFF]).pc ≤ 255 ∧
    dispatch opcDefault
      ((code 255 [0xFF]).interruptControllerStep.mem.read (code 255 [0xFF]).interruptControllerStep.pc) = none := by decide

theorem witness_StepRuns : (code 255 [0x1B]).run = .running ∧ (code 255 [0x1B]).pc ≤ 255 ∧
    decodeWith opcDefault (code 255 [0x1B]).interruptControllerStep.instrBytes = .ok (.hlt, []) := ⟨rfl, by decide, rfl⟩

/-- And with a delivery before it. -/
theorem witness_StepRuns_after_delivery :
    decodeWith opcDefault (((((State.reset.setTo .im 1).setTo .is 1).store 0xF8 0xFF).store 0xFF
      0x0B).interruptControllerStep).instrBytes = .ok (.iret, []) := by rfl

theorem witness_OperandFetch_faults : (code 254 [0xA8, 0x07]).pc ≤ 255 ∧
    dispatch opcDefault (code 254 [0xA8, 0x07]).beginCycle.ir = some .add ∧
    (code 254 [0xA8, 0x07]).beginCycle.operandFault 1 Mnemonic.add.operandKinds = some (.addressOutOfRange 256) ∧
    (code 253 [0xA8, 0x07, 0x08]).beginCycle.operandFault 1 Mnemonic.add.operandKinds =
      some (.invalidRegister 253 0xA8 8) := by decide

theorem witness_OperandFetch_completes : dispatch opcDefault (code 253 [0xA8, 0x07, 0x07]).beginCycle.ir = some .add ∧
    (code 253 [0xA8, 0x07, 0x07]).beginCycle.operandFault 1 Mnemonic.add.operandKinds = none := by decide

theorem witness_TickReports_fault : (code 254 [0x48, 0x07]).run = .running ∧
    (code 254 [0x48, 0x07]).firstFault opcDefault = some (.addressOutOfRange 256) := by decide

theorem witness_TickReports_none : (code 253 [0x48, 0x07]).firstFault opcDefault = none := by decide

theorem witness_PlacedInstruction : decodeTableWord 24 0xFF0799 = some (.ldi .r7 0xFF) ∧
    decodeTableWord 8 0x1B = some .hlt := ⟨rfl, rfl⟩

theorem witness_Controller_delivers :
    ((State.reset.setTo .im 0x80).setTo .is 0xFF).pendingLine = some 7 ∧
      ((State.reset.setTo .im 0xFF).setTo .is 0xFF).pendingLine = some 0 ∧
      ((State.reset.setTo .im 0x80).setTo .is 0xFF).reg .is &&&
        ((State.reset.setTo .im 0x80).setTo .is 0xFF).reg .im ≠ 0 := by decide

theorem witness_Controller_does_not_deliver :
    ((State.reset.setTo .im 0x7F).setTo .is 0x80).reg .is &&& ((State.reset.setTo .im 0x7F).setTo .is 0x80).reg .im = 0 ∧
      { State.reset with interruptsEnabled := false }.interruptsEnabled = false := by decide

theorem witness_Delivery : ({ State.reset with pc := 255 } : State).pc ≤ 255 := by decide

/-- A handler that keeps SP and the nine cells but changes another register, the IS bit of another line and `overflow`. -/
theorem witness_IretAfterDelivery :
    let s : State := { (State.reset.setTo .im 2).setTo .is 2 with pc := 255 }
    let h : State := { ((s.deliver 1).setTo .r0 9).setTo .is 4 with overflow := true, pc := 0x30 }
    s.pc ≤ 255 ∧ h.reg .sp = (s.deliver 1).reg .sp ∧
      ∀ k ∈ List.range 9, h.load (s.reg .sp - 9#8 + BitVec.ofNat 8 k) =
        (s.deliver 1).load (s.reg .sp - 9#8 + BitVec.ofNat 8 k) := by decide +kernel

/-- For the statements over `exec i s = .next t`: a storing, a printing, a control and a register form answer one. -/
theorem witness_exec_answers : (∃ t, exec (.st .r0 .r1) State.reset = .next t) ∧
    (∃ t, exec (.prn .r0) State.reset = .next t) ∧ (∃ t, exec .iret State.reset = .next t) ∧
    (∃ t, exec (.call .r7) { State.reset with pc := 254 } = .next t) ∧
    ∃ t, exec (.mul .r0 .r1) State.reset = .next t := ⟨⟨_, rfl⟩, ⟨_, rfl⟩, ⟨_, rfl⟩, ⟨_, rfl⟩, ⟨_, rfl⟩⟩

/-- A pending line cleared by its delivery, and another by LDI R6, 0 with the first masked. -/
theorem witness_PendingLines_cleared :
    (let s := (State.reset.setTo .im 1).setTo .is 1;
      (s.reg .is).getLsbD 0 = true ∧ s.pendingLine = some 0 ∧
        after (step s) (fun t => (t.reg .is).getLsbD 0) = some false) ∧
    (let s := (code 0 [0x99, 0x06, 0x00]).setTo .is 0x80;
      (s.reg .is).getLsbD 7 = true ∧ s.pendingLine = none ∧
        after (step s) (fun t => (t.reg .is).getLsbD 7) = some false) := by decide

theorem witness_PendingLines_mask_changes :
    after (step (code 0 [0x99, 0x05, 0xFF])) (fun t => t.reg .im) = some 0xFF ∧
      (code 0 [0x99, 0x05, 0xFF]).reg .im = 0 := by decide

theorem witness_Hlt : (code 255 [0x1B]).run = .running ∧
    after (step (code 255 [0x1B])) (fun t => t.run) = some (.halted .hlt) := by decide

/-- Both clauses of CALL at the boundary, and the premise of its return. -/
theorem witness_Call : { State.reset with pc := 253 }.pc + 2 ≤ 255 ∧ { State.reset with pc := 254 }.pc + 2 > 255 := by
  decide

/-- The state CALL leaves is itself one that gives back SP and the cell. -/
theorem witness_CallThenRet : ∃ t, exec (.call .r7) { State.reset with pc := 253 } = .next t ∧
    (t.reg .sp).toNat = 0xF7 ∧ (t.load (t.reg .sp)).toNat = 255 := ⟨_, rfl, rfl, rfl⟩

theorem witness_Pop : (Reg.r0 ≠ .sp) ∧ Reg.r7 = .sp := by decide

theorem witness_Pushes : State.reset.reg .sp = 0xF8#8 ∧ (List.replicate 248 Reg.r0).length = 248 ∧
    0xF8 ≤ (0xF8 : Byte).toNat ∧ 0xF8 ≤ (0xFF : Byte).toNat := by decide +kernel

/-- A store over the byte that the next fetch reads. -/
theorem witness_StoreIntoCode :
    after (exec (.st .r0 .r1) ((State.reset.setTo .r0 3).setTo .r1 0x1B)) (fun t => t.pc) =
      some (((State.reset.setTo .r0 3).setTo .r1 0x1B).reg .r0).toNat := by decide

theorem witness_Pokes : State.reset.clockStarted = false ∧ State.reset.run = .running ∧
    after (step (code 0 [0x0B])) (fun t => t.clockStarted) = some true := by decide

theorem witness_Raising : (8 > 7) ∧ State.reset.run = .running ∧ (State.reset.halt .hlt).run = .halted .hlt ∧
    ((State.reset.setTo .is 0x80).reg .is).getLsbD 7 = true := by decide

theorem reset_inv : State.reset.Inv opcDefault :=
  ⟨by decide, by decide, trivial, fun _ => ⟨rfl, rfl, rfl⟩⟩

/-- The invariant also holds in states reset does not reach: PC past the end, and Halted with a report. -/
theorem witness_Inv_past_the_end : { State.reset with pc := 256, clockStarted := true }.Inv opcDefault :=
  ⟨by decide, by decide, trivial, fun h => nomatch h⟩

theorem witness_EveryTickKeeps : ∃ t, tick opcDefault State.reset = .next t := ⟨_, rfl⟩

theorem witness_EveryHostRunKeeps : ∃ t, hostRun opcDefault
    [.poke 255 7, .raiseInterrupt 7, .timer, .tick] State.reset = .next t := ⟨_, rfl⟩

end Sys2Proof.Tests
end

/-! SUPPORT. The next state of each instruction as a function, and what it reads and writes of the hidden state and of
the output stream: the statements of spec/10_state.md are read off these lemmas. -/

namespace Sys2Proof.Machine

/-! ### The next state of an instruction -/

/-- The state an instruction leaves (`exec_eq_next`). -/
def State.afterInstr (s : State) : Instr → State
  | .hlt => s.halt .hlt
  | .ldi d imm => (s.writeReg d imm.toNat).advance 3
  | .mul a b =>
    ((s.setOverflow (rawProduct (s.reg a) (s.reg b))).writeReg a (rawProduct (s.reg a) (s.reg b))).advance 3
  | .add a b => (s.writeReg a (rawSum (s.reg a) (s.reg b))).advance 3
  | .prn a => (s.emit (.dec (s.reg a))).advance 2
  | .pra a => (s.emit (.chr (s.reg a))).advance 2
  | .push a => (s.pushReg a).advance 2
  | .pop d => (s.popReg d).advance 2
  | .call a =>
    if s.pc + 2 > 255 then s.halt (.addressOutOfRange (s.pc + 2))
    else (s.push fun _ => BitVec.ofNat 8 (s.pc + 2)).jumpTo ((s.push fun _ => BitVec.ofNat 8 (s.pc + 2)).reg a)
  | .ret => s.popPc
  | .jmp a => s.jumpTo (s.reg a)
  | .st a b => (s.store (s.effectiveAddress a) (s.reg b)).advance 3
  | .ld d b => (s.writeReg d (s.load (s.effectiveAddress b)).toNat).advance 3
  | .iret => s.restoreContext

/-- Every instruction answers a next state in every state: faults are next states too. -/
theorem exec_eq_next (i : Instr) (s : State) : exec i s = .next (s.afterInstr i) := by
  cases i with
  | call a =>
    simp only [exec, execCall, State.afterInstr]
    split <;> rfl
  | _ => rfl

theorem exec_eq_next_iff {i : Instr} {s t : State} : exec i s = .next t ↔ s.afterInstr i = t := by
  rw [exec_eq_next, Host.Outcome.next.injEq]

/-! ### IR, `overflow` and the interrupt enable -/

/-- No instruction reads IR, `overflow` or the interrupt enable, MUL alone writes `overflow`, and IRET alone the enable
(10_state.md R34, R35, R36, R40). -/
theorem State.afterInstr_hidden (s : State) (i : Instr) (x : Byte) (b e : Bool) :
    { s with ir := x, overflow := b, interruptsEnabled := e }.afterInstr i =
      { s.afterInstr i with
        ir := x
        overflow := if i.mnemonic = .mul then (s.afterInstr i).overflow else b
        interruptsEnabled := if i = .iret then true else e } := by
  cases i with
  | call a =>
    simp only [State.afterInstr]
    split <;> rfl
  | iret => exact s.restoreContext_hidden x b e
  | _ => rfl

@[simp] theorem State.afterInstr_ir (s : State) (i : Instr) : (s.afterInstr i).ir = s.ir :=
  have h := congrArg State.ir (s.afterInstr_hidden i s.ir s.overflow s.interruptsEnabled)
  h

/-- Only MUL gives `overflow` a value of its own. -/
theorem State.afterInstr_overflow (s : State) (i : Instr) :
    (s.afterInstr i).overflow = if i.mnemonic = .mul then (s.afterInstr i).overflow else s.overflow :=
  have h := congrArg State.overflow (s.afterInstr_hidden i s.ir s.overflow s.interruptsEnabled)
  h

@[simp] theorem State.afterInstr_interruptsEnabled (s : State) (i : Instr) :
    (s.afterInstr i).interruptsEnabled = if i = .iret then true else s.interruptsEnabled :=
  have h := congrArg State.interruptsEnabled (s.afterInstr_hidden i s.ir s.overflow s.interruptsEnabled)
  h

/-- The interrupt enable reaches nothing else that an instruction leaves. -/
theorem State.afterInstr_interruptsEnabled_update (s : State) (i : Instr) (e : Bool) :
    { s with interruptsEnabled := e }.afterInstr i =
      { s.afterInstr i with interruptsEnabled := if i = .iret then true else e } := by
  have h := s.afterInstr_hidden i s.ir s.overflow e
  simpa only [← s.afterInstr_overflow i, s.afterInstr_ir i] using h

/-- `overflow` reaches nothing else that an instruction leaves. -/
theorem State.afterInstr_overflow_update (s : State) (i : Instr) (b : Bool) :
    { s with overflow := b }.afterInstr i =
      { s.afterInstr i with overflow := if i.mnemonic = .mul then (s.afterInstr i).overflow else b } := by
  have h := s.afterInstr_hidden i s.ir b s.interruptsEnabled
  simpa only [← s.afterInstr_interruptsEnabled i, s.afterInstr_ir i] using h

/-! ### The output stream -/

/-- No instruction reads the output stream, and each appends the events it emits (10_state.md R39). -/
theorem State.afterInstr_out_update (s : State) (i : Instr) (o : List OutEvent) :
    { s with out := o }.afterInstr i = { s.afterInstr i with out := o ++ s.emitted i } := by
  cases i with
  | prn a | pra a => rfl
  | call a =>
    simp only [State.afterInstr, State.emitted, List.append_nil]
    split <;> rfl
  | iret =>
    rw [State.emitted, List.append_nil]
    exact s.restoreContext_out_update o
  | _ =>
    rw [State.emitted, List.append_nil]
    rfl

@[simp] theorem State.afterInstr_out (s : State) (i : Instr) : (s.afterInstr i).out = s.out ++ s.emitted i :=
  have h := congrArg State.out (s.afterInstr_out_update i s.out)
  h

theorem State.emitted_length_le (s : State) (i : Instr) : (s.emitted i).length ≤ 1 := by
  cases i <;> simp [State.emitted]

/-! ### The halted machine -/

theorem tick_of_halted (opc : OpcodeMap) {s : State} {r : HaltReason} (h : s.run = .halted r) :
    tick opc s = .next s := by
  simp [tick, State.frontEnd, h]

theorem raiseInterrupt_of_halted {s : State} {r : HaltReason} {line : Nat} (h : s.run = .halted r) (hl : line < 8) :
    raiseInterrupt line s = .next s := by
  simp [raiseInterrupt, h, hl]

/-- An event leaves a halted machine as it is (10_state.md R38). -/
theorem hostAct_of_halted (opc : OpcodeMap) {act : HostAction} {s : State} {r : HaltReason} (h : s.run = .halted r)
    (hact : act.isEvent = true) : hostAct opc act s = .next s := by
  cases act with
  | poke a v => cases hact
  | tick => exact tick_of_halted opc h
  | raiseInterrupt l => exact raiseInterrupt_of_halted h (of_decide_eq_true hact)
  | timer => exact raiseInterrupt_of_halted h (line := 1) (by decide)

theorem hostRun_cons_next {opc : OpcodeMap} {act : HostAction} {s t : State} (h : hostAct opc act s = .next t)
    (acts : List HostAction) : hostRun opc (act :: acts) s = hostRun opc acts t := by
  rw [hostRun, h]

/-! ### The statements of 10_state.md -/

/-- Settles O15, by induction on the host's actions, each of which leaves a halted machine as it is. -/
theorem haltedIsTerminal : Obligations.HaltedIsTerminal := by
  refine ⟨fun _ => rfl, fun opc acts s r hr hev => ?_⟩
  induction acts with
  | nil => rfl
  | cons act acts ih =>
    obtain ⟨hact, hacts⟩ := List.forall_mem_cons.1 hev
    rw [hostRun_cons_next (hostAct_of_halted opc hr hact)]
    exact ih hacts

/-- Settles O28: what each instruction and each delivery does to the enable, and that it is read by no instruction. -/
theorem interruptEnableIsWrittenOnlyByDeliveryAndIret :
    Obligations.InterruptEnableIsWrittenOnlyByDeliveryAndIret := by
  refine ⟨fun _ => rfl, State.deliver_interruptsEnabled, fun i s t h => ?_⟩
  obtain rfl := exec_eq_next_iff.1 h
  exact ⟨s.afterInstr_interruptsEnabled i, fun e => exec_eq_next_iff.2 (s.afterInstr_interruptsEnabled_update i e)⟩

/-- Settles O29: MUL's own value, and that no other instruction and no delivery touches or reads `overflow`. -/
theorem overflowIsWrittenOnlyByMul : Obligations.OverflowIsWrittenOnlyByMul := by
  refine ⟨fun a b s => ⟨_, exec_eq_next (.mul a b) s, rfl⟩, State.deliver_overflow, fun i s t h => ?_⟩
  obtain rfl := exec_eq_next_iff.1 h
  refine ⟨fun hi => ?_, fun b => exec_eq_next_iff.2 (s.afterInstr_overflow_update i b)⟩
  rw [s.afterInstr_overflow i, if_neg hi]

/-- The events of a tick: those of the instruction it executes, and none where it executes none. -/
theorem tick_out (opc : OpcodeMap) {s t : State} (h : tick opc s = .next t) :
    t.out = s.out ∨ ∃ i, t.out = s.out ++ s.beginCycle.emitted i := by
  rcases tick_cases opc s with ⟨_, _, ht⟩ | ⟨_, _, ht⟩ | ⟨_, _, _, _, ht⟩ | ⟨_, _, i, _, _, ht⟩ <;> rw [ht] at h
  · cases h; exact .inl rfl
  · cases h; exact .inl rfl
  · cases h; exact .inl s.beginCycle_out
  · obtain rfl := exec_eq_next_iff.1 h
    exact .inr ⟨i, by simp⟩

/-- Settles O34: each instruction appends what it emits, and a tick the events of at most one instruction. -/
theorem outputOnlyGrowsByThePrintInstructions : Obligations.OutputOnlyGrowsByThePrintInstructions := by
  refine ⟨fun _ => rfl, fun i s t h => ?_, fun opc s t h => ?_⟩
  · obtain rfl := exec_eq_next_iff.1 h
    exact ⟨s.afterInstr_out i, fun o => exec_eq_next_iff.2 (s.afterInstr_out_update i o)⟩
  · rcases tick_out opc h with h | ⟨i, h⟩
    · exact ⟨[], by rw [h, List.append_nil], Nat.zero_le 1⟩
    · exact ⟨_, h, s.beginCycle.emitted_length_le i⟩

/-- Settles O4, from the one rule of a register write, `State.reg_writeReg`. -/
theorem registerWritesReduceModulo256 : Obligations.RegisterWritesReduceModulo256 := by
  intro s r v
  refine ⟨?_, fun q hq => ?_, ?_, ?_⟩
  · rw [State.reg_writeReg, if_pos rfl, narrow_toNat, Int.toNat_of_nonneg (Int.emod_nonneg v (by decide))]
  · rw [State.reg_writeReg, if_neg fun h => hq (List.mem_singleton.2 h)]
  · rw [State.reg_decSp, if_pos rfl]
    bv_omega
  · rw [State.reg_incSp, if_pos rfl]
    bv_omega

end Sys2Proof.Machine

namespace Sys2Proof.Machine

/-! ### Memory accesses (20_memory.md R52, R55) -/

theorem State.memRead_of_gt (s : State) {a : Nat} (h : a > 255) : s.memRead a = .error (.addressOutOfRange a) :=
  if_pos h

theorem State.memRead_of_le (s : State) {a : Nat} (h : a ≤ 255) : s.memRead a = .ok (s.mem.read a) :=
  if_neg (Nat.not_lt.2 h)

theorem State.memWrite_of_gt (s : State) {a : Nat} (v : Byte) (h : a > 255) :
    s.memWrite a v = .error (.addressOutOfRange a) := if_pos h

theorem State.memWrite_of_le (s : State) {a : Nat} (v : Byte) (h : a ≤ 255) :
    s.memWrite a v = .ok { s with mem := s.mem.write a v } := if_neg (Nat.not_lt.2 h)

/-- An access in range reads what `load` reads at the address as a byte. -/
theorem State.load_ofNat (s : State) {a : Nat} (h : a ≤ 255) : s.load (BitVec.ofNat 8 a) = s.mem.read a := by
  rw [State.load, BitVec.toNat_ofNat, Nat.mod_eq_of_lt (Nat.lt_succ_of_le h)]

/-- A read depends on the one cell it reads. -/
theorem State.memRead_congr {s t : State} {a : Nat} (h : s.mem.read a = t.mem.read a) : s.memRead a = t.memRead a := by
  rw [State.memRead, State.memRead, h]

/-! ### The statement of 20_memory.md -/

/-- Settles O5: the range check on both accesses, and in range the one rule of a memory write, `Memory.read_write`. -/
theorem memoryAccessesAreRangeCheckedAndExact : Obligations.MemoryAccessesAreRangeCheckedAndExact := by
  intro s a v
  refine ⟨fun h => ⟨s.memRead_of_gt h, s.memWrite_of_gt v h⟩, fun h => ⟨?_, _, s.memWrite_of_le v h, rfl, ?_, ?_⟩⟩
  · rw [s.memRead_of_le h, s.load_ofNat h]
  · rw [State.memRead_of_le _ h, Memory.read_write, if_pos rfl]
  · intro b hb
    exact State.memRead_congr (by rw [Memory.read_write, if_neg hb.symm])

end Sys2Proof.Machine

namespace Sys2Proof

/-! ### The dispatch table and the mapped bytes (30_encoding.md R76) -/

/-- Under any map exactly the bytes that are no mnemonic's opcode dispatch to nothing. -/
theorem dispatch_eq_none_iff {opc : OpcodeMap} {b : Byte} : dispatch opc b = none ↔ ∀ m, opc m ≠ b := by
  refine ⟨dispatch_none, fun h => ?_⟩
  cases hd : dispatch opc b with
  | none => rfl
  | some m => exact absurd (opc_of_dispatch hd) (h m)

/-- An admissible map is inverted by its dispatch table. -/
theorem OpcodeMap.Admissible.dispatch_eq_some_iff {opc : OpcodeMap} (h : opc.Admissible) {b : Byte} {m : Mnemonic} :
    dispatch opc b = some m ↔ opc m = b :=
  ⟨opc_of_dispatch, fun hb => hb ▸ dispatch_opc h m⟩

theorem OpcodeMap.mem_map_all {opc : OpcodeMap} {b : Byte} : b ∈ Mnemonic.all.map opc ↔ ∃ m, opc m = b := by
  simp [Mnemonic.mem_all]

/-- Under any map the bytes that dispatch to something are the opcodes. -/
theorem dispatch_isSome_iff {opc : OpcodeMap} {b : Byte} :
    (dispatch opc b).isSome = true ↔ b ∈ Mnemonic.all.map opc := by
  rw [← Option.ne_none_iff_isSome, Ne, dispatch_eq_none_iff, OpcodeMap.mem_map_all, not_forall_not]

/-- The fourteen opcodes of an admissible map are different bytes. -/
theorem OpcodeMap.Admissible.nodup_map_all {opc : OpcodeMap} (h : opc.Admissible) : (Mnemonic.all.map opc).Nodup :=
  List.Nodup.map h.1 (by decide)

/-- Settles O11: the four points of R76 on an admissible map, one lemma each. -/
theorem dispatchInvertsTheOpcodeMap : Obligations.DispatchInvertsTheOpcodeMap := fun _ h =>
  ⟨fun _ _ => h.dispatch_eq_some_iff, dispatch_eq_none_iff.2 h.2, fun _ => dispatch_eq_none_iff,
    h.nodup_map_all, List.length_map _, fun _ => dispatch_isSome_iff⟩

end Sys2Proof

/-! SUPPORT. The operand fetch and the order of a tick's checks: the decoder, which reads the gathered bytes, reports
the fault that the loop of 40_cycle.md R96 meets first, and the statements of 40_cycle.md follow. -/

namespace Sys2Proof

/-! ### What a decoded instruction is an instruction of -/

theorem eq_of_takeF1_eq_ok {build : Reg → Instr} {bs rest : List Byte} {i : Instr}
    (h : takeF1 build bs = .ok (i, rest)) : ∃ a, i = build a := by
  rw [takeF1_eq] at h
  split at h <;> cases h
  exact ⟨_, rfl⟩

theorem eq_of_takeF2R_eq_ok {build : Reg → Reg → Instr} {bs rest : List Byte} {i : Instr}
    (h : takeF2R build bs = .ok (i, rest)) : ∃ a b, i = build a b := by
  rw [takeF2R_eq] at h
  split at h
  · cases h
  · split at h <;> cases h
    exact ⟨_, _, rfl⟩

theorem eq_of_takeF2I_eq_ok {build : Reg → Byte → Instr} {bs rest : List Byte} {i : Instr}
    (h : takeF2I build bs = .ok (i, rest)) : ∃ d imm, i = build d imm := by
  rw [takeF2I_eq] at h
  split at h
  · cases h
  · split at h <;> cases h
    exact ⟨_, _, rfl⟩

/-- The operand readers answer an instruction of the dispatched mnemonic. -/
theorem mnemonic_of_decodeOperands {m : Mnemonic} {bs rest : List Byte} {i : Instr}
    (h : decodeOperands m bs = .ok (i, rest)) : i.mnemonic = m := by
  cases m with
  | hlt | ret | iret => cases h; rfl
  | prn | pra | push | pop | call | jmp => obtain ⟨a, rfl⟩ := eq_of_takeF1_eq_ok h; rfl
  | mul | add | st | ld => obtain ⟨a, b, rfl⟩ := eq_of_takeF2R_eq_ok h; rfl
  | ldi => obtain ⟨d, imm, rfl⟩ := eq_of_takeF2I_eq_ok h; rfl

theorem decodeWith_cons_of_unmapped {opc : OpcodeMap} {op : Byte} (h : dispatch opc op = none) (bs : List Byte) :
    decodeWith opc (op :: bs) = .error (.unmappedOpcode op) := by
  simp [decodeWith, h]

namespace Machine

/-! ### The bytes the decoder reads, and the fault it reports -/

/-- At most `n` bytes from offset `j` after PC, as far as they exist; those from offset 1 are the operand bytes the
decoder sees (`instrBytes_eq_cons`). -/
def State.bytesAt (s : State) (j : Nat) : Nat → List Byte
  | 0 => []
  | n + 1 => if s.pc + j > 255 then [] else s.mem.read (s.pc + j) :: s.bytesAt (j + 1) n

theorem State.instrBytes_eq_cons (s : State) (h : s.pc ≤ 255) :
    s.instrBytes = s.mem.read s.pc :: s.bytesAt 1 2 := s.instrBytes_eq h

/-- The fault that a decoder's answer means for the tick (`tick_of_decode_error`), if any. -/
def State.faultOf {α : Type} (s : State) : Except DecodeError α → Option HaltReason
  | .error e => some (s.decodeFault e)
  | .ok _ => none

theorem State.faultOf_eq_some {α : Type} {s : State} {x : Except DecodeError α} {r : HaltReason}
    (h : s.faultOf x = some r) : ∃ e, x = .error e ∧ s.decodeFault e = r := by
  cases x with
  | error e => exact ⟨e, rfl, Option.some.inj h⟩
  | ok p => cases h

theorem State.faultOf_eq_none {α : Type} {s : State} {x : Except DecodeError α} (h : s.faultOf x = none) :
    ∃ p, x = .ok p := by
  cases x with
  | error e => cases h
  | ok p => exact ⟨p, rfl⟩

/-! ### The decoder meets the faults in the order of 40_cycle.md R96 -/

section
variable {s : State} {α : Type} {j n : Nat} {ks : List OperandKind}

/-- Reading a literal operand first is the loop's next round: only its presence is checked. -/
theorem State.faultOf_takeByte_bind {f : Byte × List Byte → Except DecodeError α}
    (hf : ∀ b, s.faultOf (f (b, s.bytesAt (j + 1) n)) = s.operandFault (j + 1) ks) :
    s.faultOf (takeByte j (s.bytesAt j (n + 1)) >>= f) = s.operandFault j (.immediate :: ks) := by
  rw [State.bytesAt, State.operandFault]
  by_cases hj : s.pc + j > 255
  · rw [if_pos hj, if_pos hj]; rfl
  · rw [if_neg hj, if_neg hj, if_neg fun h => nomatch h.1]
    exact hf _

/-- Reading a register operand first is the loop's next round: its presence is checked, then its value. -/
theorem State.faultOf_takeReg_bind {f : Reg × List Byte → Except DecodeError α} (hir : s.ir = s.mem.read s.pc)
    (hf : ∀ r, s.faultOf (f (r, s.bytesAt (j + 1) n)) = s.operandFault (j + 1) ks) :
    s.faultOf (takeReg j (s.bytesAt j (n + 1)) >>= f) = s.operandFault j (.register :: ks) := by
  rw [State.bytesAt, State.operandFault]
  by_cases hj : s.pc + j > 255
  · rw [if_pos hj, if_pos hj]; rfl
  · rw [if_neg hj, if_neg hj, takeReg_cons]
    cases hb : Reg.ofByte? (s.mem.read (s.pc + j)) with
    | none => rw [if_pos ⟨rfl, Reg.ofByte?_eq_none.1 hb⟩, ← hir]; rfl
    | some r =>
      have hle : ¬ 7 < (s.mem.read (s.pc + j)).toNat := fun h => by simp [Reg.ofByte?_eq_none.2 h] at hb
      rw [if_neg fun h => hle h.2]
      exact hf r

/-- In each format the decoder's fault is the first one the loop meets. -/
theorem State.faultOf_decodeOperands (hir : s.ir = s.mem.read s.pc) (m : Mnemonic) :
    s.faultOf (decodeOperands m (s.bytesAt 1 2)) = s.operandFault 1 m.operandKinds := by
  cases m with
  | hlt | ret | iret => rfl
  | prn | pra | push | pop | call | jmp => exact faultOf_takeReg_bind hir fun _ => rfl
  | mul | add | st | ld => exact faultOf_takeReg_bind hir fun _ => faultOf_takeReg_bind hir fun _ => rfl
  | ldi => exact faultOf_takeReg_bind hir fun _ => faultOf_takeByte_bind fun _ => rfl

end

/-- After a mapped opcode the decoder's fault is the first one the loop of the operand fetch meets. -/
theorem State.faultOf_decodeWith {opc : OpcodeMap} {s : State} {m : Mnemonic} (hp : s.pc ≤ 255)
    (hir : s.ir = s.mem.read s.pc) (hm : dispatch opc s.ir = some m) :
    s.faultOf (decodeWith opc s.instrBytes) = s.operandFault 1 m.operandKinds := by
  rw [s.instrBytes_eq_cons hp, ← hir, decodeWith_cons hm, faultOf_decodeOperands hir]

theorem State.decodeWith_of_unmapped {opc : OpcodeMap} {s : State} (hp : s.pc ≤ 255)
    (hm : dispatch opc (s.mem.read s.pc) = none) :
    decodeWith opc s.instrBytes = .error (.unmappedOpcode (s.mem.read s.pc)) := by
  rw [s.instrBytes_eq_cons hp, decodeWith_cons_of_unmapped hm]

theorem State.dispatch_of_decodeWith {opc : OpcodeMap} {s : State} {i : Instr} {rest : List Byte} (hp : s.pc ≤ 255)
    (hd : decodeWith opc s.instrBytes = .ok (i, rest)) : dispatch opc (s.mem.read s.pc) = some i.mnemonic := by
  cases hm : dispatch opc (s.mem.read s.pc) with
  | none => rw [s.decodeWith_of_unmapped hp hm] at hd; cases hd
  | some m =>
    rw [s.instrBytes_eq_cons hp, decodeWith_cons hm] at hd
    rw [mnemonic_of_decodeOperands hd]

/-! ### The order of the checks depends on PC and memory only -/

theorem State.operandFault_congr {s t : State} (hp : s.pc = t.pc) (hm : s.mem = t.mem) (j : Nat)
    (ks : List OperandKind) : s.operandFault j ks = t.operandFault j ks := by
  induction ks generalizing j with
  | nil => rfl
  | cons k ks ih => simp only [State.operandFault, hp, hm, ih]

theorem State.instructionFault_congr (opc : OpcodeMap) {s t : State} (hp : s.pc = t.pc) (hm : s.mem = t.mem) :
    s.instructionFault opc = t.instructionFault opc := by
  simp only [State.instructionFault, State.operandFault_congr hp hm, hp, hm]

/-- Check 7, for an instruction whose bytes decode: checks 4 to 6 have passed. -/
theorem State.instructionFault_of_ok {opc : OpcodeMap} {s : State} {i : Instr} {rest : List Byte} (hp : s.pc ≤ 255)
    (hir : s.ir = s.mem.read s.pc) (hd : decodeWith opc s.instrBytes = .ok (i, rest)) :
    s.instructionFault opc =
      if i.mnemonic = .call ∧ s.pc + 2 > 255 then some (.addressOutOfRange (s.pc + 2)) else none := by
  have hm := s.dispatch_of_decodeWith hp hd
  have hf := s.faultOf_decodeWith hp hir (hir ▸ hm)
  rw [hd] at hf
  simp only [State.instructionFault, hm, ← hf, State.faultOf]

/-- Checks 4 to 6, for bytes that do not decode: the decoder's fault is the first. -/
theorem State.instructionFault_of_error {opc : OpcodeMap} {s : State} {e : DecodeError} (hp : s.pc ≤ 255)
    (hir : s.ir = s.mem.read s.pc) (hd : decodeWith opc s.instrBytes = .error e) :
    s.instructionFault opc = some (s.decodeFault e) := by
  cases hm : dispatch opc (s.mem.read s.pc) with
  | none =>
    rw [s.decodeWith_of_unmapped hp hm] at hd
    cases hd
    simp only [State.instructionFault, hm, State.decodeFault]
  | some m =>
    have hf := s.faultOf_decodeWith hp hir (hir ▸ hm)
    rw [hd] at hf
    simp only [State.instructionFault, hm, ← hf, State.faultOf]

/-! ### The tick, one rule per outcome -/

/-- IR holds the byte at PC when the operands are fetched (40_cycle.md R93). -/
theorem State.beginCycle_ir_eq_read (s : State) : s.beginCycle.ir = s.beginCycle.mem.read s.beginCycle.pc := by simp

theorem tick_of_pc_gt (opc : OpcodeMap) {s : State} (hr : s.run = .running) (hp : s.pc > 255) :
    tick opc s = .next ({ s with clockStarted := true }.halt (.addressOutOfRange s.pc)) := by
  simp [tick, State.frontEnd, hr, hp]

theorem tick_of_decode_error {opc : OpcodeMap} {s : State} {e : DecodeError} (hr : s.run = .running)
    (hp : s.pc ≤ 255) (hd : decodeWith opc s.beginCycle.instrBytes = .error e) :
    tick opc s = .next (s.beginCycle.halt (s.beginCycle.decodeFault e)) := by
  simp [tick, State.frontEnd, hr, Nat.not_lt.2 hp, hd]

theorem tick_of_decode_ok {opc : OpcodeMap} {s : State} {i : Instr} {rest : List Byte} (hr : s.run = .running)
    (hp : s.pc ≤ 255) (hd : decodeWith opc s.beginCycle.instrBytes = .ok (i, rest)) :
    tick opc s = exec i s.beginCycle := by
  simp [tick, State.frontEnd, hr, Nat.not_lt.2 hp, hd]

theorem State.firstFault_of_pc_le (opc : OpcodeMap) {s : State} (hp : s.pc ≤ 255) :
    s.firstFault opc = s.beginCycle.instructionFault opc := by
  rw [State.firstFault, if_neg (Nat.not_lt.2 hp)]
  exact State.instructionFault_congr opc s.beginCycle_pc.symm s.beginCycle_mem.symm

/-! ### PC and the run state after an instruction -/

/-- An instruction advances by its width (40_cycle.md R97), or leaves an address: it jumps, returns or halts. -/
theorem State.afterInstr_pc_le_or_advance (s : State) (i : Instr) (hp : s.pc ≤ 255) :
    (s.afterInstr i).pc ≤ 255 ∨ (s.afterInstr i).pc = s.pc + i.width := by
  have byte_le (b : Byte) : b.toNat ≤ 255 := Nat.le_of_lt_succ b.isLt
  cases i with
  | hlt => exact .inl hp
  | call a =>
    simp only [State.afterInstr]
    split
    · exact .inl hp
    · exact .inl (byte_le _)
  | ret | jmp a | iret => exact .inl (byte_le _)
  | _ => exact .inr rfl

/-- Only HLT and a CALL whose return address is no byte halt (44_control.md R141, R150). -/
theorem State.afterInstr_run (s : State) (i : Instr) : (s.afterInstr i).run =
    if i.mnemonic = .call ∧ s.pc + 2 > 255 then .halted (.addressOutOfRange (s.pc + 2))
    else if i = .hlt then .halted .hlt else s.run := by
  cases i with
  | call a =>
    simp only [State.afterInstr, Instr.mnemonic, true_and]
    split <;> rfl
  | iret => exact s.restoreContext_run
  | _ => rfl

/-! ### The statements of 40_cycle.md -/

/-- Settles O16: of the four outcomes of a tick only an executed instruction can leave PC = 256, and only by its
advance. -/
theorem pcPastTheEndFaultsBeforeAnythingElse : Obligations.PcPastTheEndFaultsBeforeAnythingElse := by
  refine ⟨fun opc s r => tick_of_halted opc, fun opc s hr hp => ⟨true, ?_⟩, fun opc s t hp ht hpc => ?_⟩
  · rw [tick_of_pc_gt opc hr (by omega), hp]
    rfl
  · have hb := s.beginCycle_pc_le hp
    rcases tick_cases opc s with ⟨_, _, h⟩ | ⟨_, hgt, _⟩ | ⟨_, _, _, _, h⟩ | ⟨_, _, i, rest, hd, h⟩
    · rw [h] at ht; cases ht; omega
    · omega
    · rw [h] at ht; cases ht; rw [State.halt_pc] at hpc; omega
    · obtain rfl := exec_eq_next_iff.1 (h ▸ ht)
      refine ⟨i, rest, hd, ?_⟩
      rcases s.beginCycle.afterInstr_pc_le_or_advance i hb with hle | heq <;> omega

/-- Settles O19: the decoder's fault is the first that the loop of R96 meets, and what it accepts is an instruction of
the dispatched mnemonic. -/
theorem operandFetchFaultsInOrderBeforeAnyEffect : Obligations.OperandFetchFaultsInOrderBeforeAnyEffect := by
  intro opc s m hr hp hm
  have hf := State.faultOf_decodeWith (s.beginCycle_pc_le hp) s.beginCycle_ir_eq_read hm
  refine ⟨fun r hfault => ?_, fun hnone => ?_⟩
  · obtain ⟨e, hd, rfl⟩ := State.faultOf_eq_some (hf.trans hfault)
    exact tick_of_decode_error hr hp hd
  · obtain ⟨⟨i, rest⟩, hd⟩ := State.faultOf_eq_none (hf.trans hnone)
    have hi := State.dispatch_of_decodeWith (s.beginCycle_pc_le hp) hd
    rw [← s.beginCycle_ir_eq_read, hm] at hi
    exact ⟨i, (Option.some.inj hi).symm, tick_of_decode_ok hr hp hd⟩

/-- Settles O20: the check of PC, then the decoder's checks 4 to 6, then CALL's own check 7. -/
theorem tickReportsTheFirstFailingCheck : Obligations.TickReportsTheFirstFailingCheck := by
  refine ⟨fun opc s r => tick_of_halted opc, fun opc s hr => ?_⟩
  by_cases hp : s.pc > 255
  · have hfirst : s.firstFault opc = some (.addressOutOfRange s.pc) := if_pos hp
    exact ⟨_, tick_of_pc_gt opc hr hp, by simp [hfirst]⟩
  · have hp' : s.pc ≤ 255 := Nat.not_lt.1 hp
    have hb := s.beginCycle_pc_le hp'
    have hir := s.beginCycle_ir_eq_read
    rw [State.firstFault_of_pc_le opc hp']
    cases hd : decodeWith opc s.beginCycle.instrBytes with
    | error e =>
      exact ⟨_, tick_of_decode_error hr hp' hd, by simp [State.instructionFault_of_error hb hir hd]⟩
    | ok p =>
      obtain ⟨i, rest⟩ := p
      refine ⟨_, (tick_of_decode_ok hr hp' hd).trans (exec_eq_next ..), ?_⟩
      rw [State.instructionFault_of_ok hb hir hd, State.afterInstr_run, State.beginCycle_run, hr]
      by_cases hcall : i.mnemonic = .call ∧ s.beginCycle.pc + 2 > 255
      · simp only [if_pos hcall]
        exact ⟨fun r h => congrArg RunState.halted (Option.some.inj h), fun h => nomatch h⟩
      · simp only [if_neg hcall]
        exact ⟨fun r h => (nomatch h), fun _ => ⟨i, rest, rfl, rfl⟩⟩

/-- Settles O17: the decoder rejects an unmapped opcode whatever follows it, in the state that delivery and the fetch
leave. -/
theorem unmappedOpcodeHaltsAfterTheFetch : Obligations.UnmappedOpcodeHaltsAfterTheFetch := by
  intro opc s hr hp hun
  have hm : dispatch opc (s.beginCycle.mem.read s.beginCycle.pc) = none := by
    rw [s.beginCycle_mem, s.beginCycle_pc]
    exact dispatch_eq_none_iff.2 hun
  refine ⟨true, ?_⟩
  rw [tick_of_decode_error hr hp (State.decodeWith_of_unmapped (s.beginCycle_pc_le hp) hm), s.beginCycle_eq]
  rfl

end Machine
end Sys2Proof

/-! SUPPORT. The two ALU instructions: how their format decodes, what a register write stores, and the statements of
41_alu.md. -/

namespace Sys2Proof

/-- A register operand byte above 7 is rejected (30_encoding.md R74). -/
theorem takeReg_of_gt {x : Byte} (h : 7 < x.toNat) (j : Nat) (bs : List Byte) :
    takeReg j (x :: bs) = .error (.badRegister x) := by
  rw [takeReg_cons, Reg.ofByte?_eq_none.2 h]

namespace Machine

/-! ### Format F2R -/

/-- A mnemonic whose operands are read by `takeF2R` decodes in that format, with each of its rejections. -/
theorem decodesF2R_of_decodeOperands {m : Mnemonic} {build : Reg → Reg → Instr}
    (hm : ∀ bs, decodeOperands m bs = takeF2R build bs) : DecodesF2R m build := by
  intro opc hopc x a b rest
  have hdecode (bs : List Byte) : decodeWith opc (opc m :: bs) = takeF2R build bs :=
    (decodeWith_opc hopc m bs).trans (hm bs)
  simp only [hdecode, takeF2R_eq]
  refine ⟨?missingFirst, fun hx => ?badFirst, ?missingSecond, fun hx => ?badSecond, ?ok⟩
  case missingFirst => rw [takeReg_nil]
  case badFirst => rw [takeReg_of_gt hx]
  case missingSecond => simp only [takeReg_toByte, takeReg_nil]
  case badSecond => simp only [takeReg_toByte, takeReg_of_gt hx]
  case ok => simp only [takeReg_toByte]

/-! ### The value and the frame of a register write -/

/-- An exact natural result is stored modulo 256 (10_state.md R22). -/
theorem State.toNat_reg_writeReg_natCast (s : State) (r : Reg) (n : Nat) :
    ((s.writeReg r n).reg r).toNat = n % 256 := by
  rw [State.reg_writeReg, if_pos rfl, narrow_natCast, BitVec.toNat_ofNat]

theorem State.onlyRegsChange_writeReg (s : State) (r : Reg) (v : Int) : OnlyRegsChange [r] s (s.writeReg r v) := by
  intro q hq
  rw [State.reg_writeReg, if_neg (List.ne_of_not_mem_cons hq)]

/-! ### The statements of 41_alu.md -/

/-- Settles O35: ADD is one register write of the exact sum, and an advance. -/
theorem addStoresTheSumModulo256 : Obligations.AddStoresTheSumModulo256 := by
  refine ⟨decodesF2R_of_decodeOperands fun _ => rfl, rfl, fun a b s => ⟨_, exec_eq_next (.add a b) s, ?_⟩⟩
  exact ⟨s.toNat_reg_writeReg_natCast a _, rfl, rfl, s.onlyRegsChange_writeReg a _, fun _ _ => rfl, rfl, rfl, rfl,
    rfl, rfl⟩

/-- Settles O36: MUL sets `overflow` from the exact product, then is one register write of it, and an advance. -/
theorem mulStoresTheProductAndSetsOverflow : Obligations.MulStoresTheProductAndSetsOverflow := by
  refine ⟨decodesF2R_of_decodeOperands fun _ => rfl, rfl, fun a b s => ⟨_, exec_eq_next (.mul a b) s, ?_⟩⟩
  exact ⟨State.toNat_reg_writeReg_natCast _ a _, decide_eq_true_iff, rfl, State.onlyRegsChange_writeReg _ a _,
    fun _ _ => rfl, rfl, rfl, rfl, rfl, rfl⟩

end Machine
end Sys2Proof

/-! SUPPORT. The load and store instructions: how LDI's format decodes, what a byte written to a register and a store
leave, and the statements of 42_load_store.md. -/

namespace Sys2Proof.Machine

/-! ### Format F2I -/

/-- A mnemonic whose operands are read by `takeF2I` decodes in that format, with each of its rejections. -/
theorem decodesF2I_of_decodeOperands {m : Mnemonic} {build : Reg → Byte → Instr}
    (hm : ∀ bs, decodeOperands m bs = takeF2I build bs) : DecodesF2I m build := by
  intro opc hopc x imm d rest
  have hdecode (bs : List Byte) : decodeWith opc (opc m :: bs) = takeF2I build bs :=
    (decodeWith_opc hopc m bs).trans (hm bs)
  simp only [hdecode, takeF2I_eq]
  refine ⟨?missingRegister, fun hx => ?badRegister, ?missingLiteral, ?ok⟩
  case missingRegister => rw [takeReg_nil]
  case badRegister => rw [takeReg_of_gt hx]
  case missingLiteral => simp only [takeReg_toByte, takeByte_nil]
  case ok => simp only [takeReg_toByte, takeByte_cons]

/-! ### What a byte written to a register and a store leave -/

/-- A byte is stored in a register as it is (10_state.md R22). -/
theorem State.reg_writeReg_byte (s : State) (r : Reg) (b : Byte) : (s.writeReg r b.toNat).reg r = b := by
  rw [State.reg_writeReg, if_pos rfl, narrow_byte]

theorem State.load_store_same (s : State) (a v : Byte) : (s.store a v).load a = v := by
  rw [State.load_store, if_pos rfl]

theorem State.onlyCellsChange_store (s : State) (a v : Byte) : OnlyCellsChange [a] s (s.store a v) := by
  intro b hb
  rw [State.load_store, if_neg (List.ne_of_not_mem_cons hb)]

/-! ### The statements of 42_load_store.md -/

/-- Settles O37: LDI is one register write of the literal, and an advance. -/
theorem ldiLoadsTheImmediate : Obligations.LdiLoadsTheImmediate := by
  refine ⟨decodesF2I_of_decodeOperands fun _ => rfl, rfl, fun d imm s => ⟨_, exec_eq_next (.ldi d imm) s, ?_⟩⟩
  exact ⟨s.reg_writeReg_byte d imm, rfl, rfl, s.onlyRegsChange_writeReg d _, fun _ _ => rfl, rfl, rfl, rfl, rfl, rfl⟩

/-- Settles O38: LD is one register write of the byte loaded before it, which stays that byte where `d = b`, and an
advance. -/
theorem ldLoadsFromTheAddressInTheRegister : Obligations.LdLoadsFromTheAddressInTheRegister := by
  refine ⟨decodesF2R_of_decodeOperands fun _ => rfl, rfl, fun d b s => ⟨_, exec_eq_next (.ld d b) s, ?_⟩⟩
  exact ⟨s.reg_writeReg_byte d _, rfl, rfl, rfl, s.onlyRegsChange_writeReg d _, fun _ _ => rfl, rfl, rfl, rfl, rfl,
    rfl⟩

/-- Settles O39: ST is one store at the address in its first register, and an advance. -/
theorem stStoresAtTheAddressInTheFirstRegister : Obligations.StStoresAtTheAddressInTheFirstRegister := by
  refine ⟨decodesF2R_of_decodeOperands fun _ => rfl, rfl, fun a b s => ⟨_, exec_eq_next (.st a b) s, ?_⟩⟩
  exact ⟨s.load_store_same _ _, rfl, rfl, rfl, fun _ _ => rfl, s.onlyCellsChange_store _ _, rfl, rfl, rfl, rfl, rfl⟩

end Sys2Proof.Machine

/-! SUPPORT. The stack instructions: how format F1 decodes, what a push and a pop of a register leave, and the
statements of 43_stack.md. -/

namespace Sys2Proof.Machine

/-! ### Format F1 -/

/-- A mnemonic whose operand is read by `takeF1` decodes in that format, with each of its rejections. -/
theorem decodesF1_of_decodeOperands {m : Mnemonic} {build : Reg → Instr}
    (hm : ∀ bs, decodeOperands m bs = takeF1 build bs) : DecodesF1 m build := by
  intro opc hopc x r rest
  have hdecode (bs : List Byte) : decodeWith opc (opc m :: bs) = takeF1 build bs :=
    (decodeWith_opc hopc m bs).trans (hm bs)
  simp only [hdecode, takeF1_eq]
  refine ⟨?missing, fun hx => ?bad, ?ok⟩
  case missing => rw [takeReg_nil]
  case bad => rw [takeReg_of_gt hx]
  case ok => rw [takeReg_toByte]

/-! ### What a push and a pop leave -/

/-- Two register files that read alike are the same file. -/
theorem RegFile.ext_get {f g : RegFile} (h : ∀ q, f.get q = g.get q) : f = g := by
  cases f; cases g
  rw [RegFile.mk.injEq]
  exact ⟨h .r0, h .r1, h .r2, h .r3, h .r4, h .r5, h .r6, h .r7⟩

theorem State.onlyRegsChange_pushReg (s : State) (r : Reg) : OnlyRegsChange [.sp] s (s.pushReg r) := by
  intro q hq
  rw [State.reg_pushReg, if_neg (List.ne_of_not_mem_cons hq)]

theorem State.onlyCellsChange_pushReg (s : State) (r : Reg) :
    OnlyCellsChange [s.decSp.reg .sp] s (s.pushReg r) :=
  s.decSp.onlyCellsChange_store _ _

theorem State.onlyRegsChange_popReg (s : State) (r : Reg) : OnlyRegsChange [r, .sp] s (s.popReg r) := by
  intro q hq
  obtain ⟨hr, hsp⟩ : q ≠ r ∧ q ≠ .sp := by simpa using hq
  rw [State.reg_popReg, if_neg hsp, if_neg hr]

theorem State.reg_popReg_same (s : State) {r : Reg} (h : r ≠ .sp) : (s.popReg r).reg r = s.load (s.reg .sp) := by
  rw [State.reg_popReg, if_neg h, if_pos rfl]

theorem State.reg_sp_popReg (s : State) (r : Reg) :
    (s.popReg r).reg .sp = (if r = .sp then s.load (s.reg .sp) else s.reg .sp) + 1#8 := by
  rw [State.reg_popReg, if_pos rfl]

/-- The cell a push leaves SP at holds what the pushed register, SP too, holds after the push (43_stack.md R130). -/
theorem State.load_sp_pushReg (s : State) (r : Reg) :
    (s.pushReg r).load ((s.pushReg r).reg .sp) = (s.pushReg r).reg r :=
  s.decSp.load_store_same _ _

/-- A pop that loads the value its register already has only increments SP (43_stack.md R131). -/
theorem State.reg_popReg_of_load_sp {s : State} {r : Reg} (h : s.load (s.reg .sp) = s.reg r) (q : Reg) :
    (s.popReg r).reg q = s.incSp.reg q := by
  have hsp : (if r = .sp then s.reg r else s.reg .sp) = s.reg .sp := ite_eq_right_iff.2 fun hr => congrArg s.reg hr
  have hrest : (if q = r then s.reg r else s.reg q) = s.reg q := ite_eq_right_iff.2 fun hq => congrArg s.reg hq.symm
  rw [State.reg_popReg, State.reg_incSp, h, hsp, hrest]

/-- SP comes back: an increment undoes a decrement modulo 256 (43_stack.md R133). -/
theorem State.reg_incSp_pushReg (s : State) (r q : Reg) : (s.pushReg r).incSp.reg q = s.reg q := by
  rw [State.reg_incSp, State.reg_pushReg, State.reg_pushReg, if_pos rfl, BitVec.sub_add_cancel]
  split
  · next hq => rw [hq]
  · rfl

theorem State.regs_popReg_pushReg (s : State) (r : Reg) : ((s.pushReg r).popReg r).regs = s.regs :=
  RegFile.ext_get fun q => (State.reg_popReg_of_load_sp (s.load_sp_pushReg r) q).trans (s.reg_incSp_pushReg r q)

/-! ### The statements of 43_stack.md -/

/-- Settles O49: the pop loads what the pushed register holds after the push, so it only moves SP back; the advance
between them changes PC alone. -/
theorem pushThenPopRestoresTheRegisters : Obligations.PushThenPopRestoresTheRegisters := fun a s =>
  ⟨_, _, exec_eq_next (.push a) s, exec_eq_next (.pop a) _, s.regs_popReg_pushReg a⟩

/-- Settles O40: PUSH is one push of the register as it stands after the decrement, and an advance. -/
theorem pushStoresBelowTheStackPointer : Obligations.PushStoresBelowTheStackPointer := by
  refine ⟨decodesF1_of_decodeOperands fun _ => rfl, rfl, fun a s => ⟨_, exec_eq_next (.push a) s, ?_⟩⟩
  have hsp : s.decSp.reg .sp = s.reg .sp - 1#8 := s.reg_decSp .sp
  have hcell : (s.pushReg a).load (s.decSp.reg .sp) = if a = .sp then s.reg .sp - 1#8 else s.reg a :=
    (s.load_sp_pushReg a).trans (s.reg_pushReg a a)
  exact ⟨hsp, rfl, hcell, rfl, rfl, s.onlyRegsChange_pushReg a, s.onlyCellsChange_pushReg a, rfl, rfl, rfl, rfl, rfl⟩

/-- Settles O41: POP is one pop of the register, and an advance; into SP the increment applies to the byte loaded. -/
theorem popLoadsFromTheStackPointer : Obligations.PopLoadsFromTheStackPointer := by
  refine ⟨decodesF1_of_decodeOperands fun _ => rfl, rfl, fun d s => ⟨_, exec_eq_next (.pop d) s, ?_⟩⟩
  refine ⟨fun hd => ⟨s.reg_popReg_same hd, (s.reg_sp_popReg d).trans (by rw [if_neg hd])⟩,
    fun hd => (s.reg_sp_popReg d).trans (by rw [if_pos hd]), ?_⟩
  exact ⟨rfl, rfl, s.onlyRegsChange_popReg d, fun _ _ => rfl, rfl, rfl, rfl, rfl, rfl⟩

end Sys2Proof.Machine

/-! SUPPORT. The control transfer instructions: how format F0 decodes, what a push and a pop of PC leave, the frame a
delivery leaves on the stack and IRET reads back, and the statements of 44_control.md. -/

namespace Sys2Proof

/-! ### Bytes and the places of the registers in a frame -/

/-- A natural number that is a byte is stored as it is. -/
theorem toNat_ofNat_byte {n : Nat} (h : n ≤ 255) : (BitVec.ofNat 8 n).toNat = n := by
  rw [BitVec.toNat_ofNat, Nat.mod_eq_of_lt (Nat.lt_succ_of_le h)]

/-- Where a register stands in the frame of the context switch, counted from its lowest cell: SP lowest, R0 highest,
with PC above it at 8. -/
def Reg.frameOffset (r : Reg) : Nat := 7 - r.toByte.toNat

theorem Reg.frameOffset_lt (r : Reg) : r.frameOffset < 9 := by cases r <;> decide

theorem byte_add_succ (x : Byte) (n : Nat) : x + BitVec.ofNat 8 n + 1#8 = x + BitVec.ofNat 8 (n + 1) := by
  rw [BitVec.ofNat_add, BitVec.add_assoc]

theorem byte_sub_add {k n : Nat} (h : k ≤ n) (x : Byte) :
    x - BitVec.ofNat 8 n + BitVec.ofNat 8 k = x - BitVec.ofNat 8 (n - k) := by
  obtain ⟨m, rfl⟩ := Nat.exists_eq_add_of_le h
  rw [Nat.add_sub_cancel_left, BitVec.ofNat_add]
  bv_omega

namespace Machine

/-! ### Format F0 -/

/-- A mnemonic that reads no operand decodes in that format, whatever follows. -/
theorem decodesF0_of_decodeOperands {m : Mnemonic} {i : Instr} (hm : ∀ bs, decodeOperands m bs = .ok (i, bs)) :
    DecodesF0 m i :=
  fun _ hopc rest => (decodeWith_opc hopc m rest).trans (hm rest)

/-! ### A push and a pop of PC -/

theorem State.load_sp_push (s : State) (f : State → Byte) : (s.push f).load ((s.push f).reg .sp) = f s.decSp :=
  s.decSp.load_store_same _ _

theorem State.onlyRegsChange_push (s : State) (f : State → Byte) : OnlyRegsChange [.sp] s (s.push f) := by
  intro q hq
  rw [State.reg_push, if_neg (List.ne_of_not_mem_cons hq)]

theorem State.onlyCellsChange_push (s : State) (f : State → Byte) : OnlyCellsChange [s.decSp.reg .sp] s (s.push f) :=
  s.decSp.onlyCellsChange_store _ _

theorem State.onlyRegsChange_popPc (s : State) : OnlyRegsChange [.sp] s s.popPc := by
  intro q hq
  rw [State.reg_popPc, if_neg (List.ne_of_not_mem_cons hq)]

/-! ### The two outcomes of CALL (44_control.md R141) -/

/-- The state after CALL's push of its return address (`exec_call_of_le`). -/
def State.pushReturn (s : State) : State := s.push fun _ => BitVec.ofNat 8 (s.pc + 2)

theorem State.reg_sp_pushReturn (s : State) : s.pushReturn.reg .sp = s.reg .sp - 1#8 := s.reg_push _ .sp

theorem State.load_sp_pushReturn {s : State} (h : s.pc + 2 ≤ 255) :
    (s.pushReturn.load (s.pushReturn.reg .sp)).toNat = s.pc + 2 := by
  rw [State.pushReturn, State.load_sp_push, toNat_ofNat_byte h]

theorem exec_call_of_le {s : State} (h : s.pc + 2 ≤ 255) (a : Reg) :
    exec (.call a) s = .next (s.pushReturn.jumpTo (s.decSp.reg a)) := by
  rw [exec_eq_next, State.afterInstr, if_neg (Nat.not_lt.2 h)]
  rfl

theorem exec_call_of_gt {s : State} (h : s.pc + 2 > 255) (a : Reg) :
    exec (.call a) s = .next (s.halt (.addressOutOfRange (s.pc + 2))) := by
  rw [exec_eq_next, State.afterInstr, if_pos h]

/-! ### The frame on the stack (44_control.md R146, 60_exceptions.md R174) -/

/-- IRET loads SP first, and the loaded SP passes the nine cells of the frame it points at. -/
theorem State.reg_sp_restoreContext (s : State) : s.restoreContext.reg .sp = s.load (s.reg .sp) + 9#8 := by
  simp [State.restoreContext, Reg.all, byte_add_succ]

/-- IRET gives every other register its cell of the frame that the loaded SP points at. -/
theorem State.reg_restoreContext (s : State) {q : Reg} (hq : q ≠ .sp) :
    s.restoreContext.reg q = s.load (s.load (s.reg .sp) + BitVec.ofNat 8 q.frameOffset) := by
  cases q with
  | r7 => exact absurd rfl hq
  | _ => simp [State.restoreContext, Reg.all, byte_add_succ, Reg.frameOffset, Reg.toByte]

/-- IRET takes PC from the highest cell of that frame. -/
theorem State.restoreContext_pc (s : State) : s.restoreContext.pc = (s.load (s.load (s.reg .sp) + 8#8)).toNat := by
  simp [State.restoreContext, Reg.all, byte_add_succ]

/-- A delivery saves each register, SP among them, in its cell of the frame as the delivery leaves it. -/
theorem State.load_deliver_reg (s : State) (i : Line) (q : Reg) :
    (s.deliver i).load (s.reg .sp - 9#8 + BitVec.ofNat 8 q.frameOffset) = (s.deliver i).reg q := by
  have hoff : q.frameOffset ≤ 9 := Nat.le_of_lt q.frameOffset_lt
  rw [byte_sub_add hoff, State.load_deliver, State.load_saveContext, State.reg_deliver]
  cases q <;> simp [Reg.frameOffset, Reg.toByte]

/-- A delivery saves PC in the highest cell of the frame. -/
theorem State.load_deliver_pc (s : State) (i : Line) :
    (s.deliver i).load (s.reg .sp - 9#8 + 8#8) = BitVec.ofNat 8 s.pc := by
  rw [byte_sub_add (by decide), State.load_deliver, State.load_saveContext]
  simp

theorem getLsbD_lineBit : ∀ i j : Line, (lineBit i).getLsbD j.val = decide (j = i) := by decide

/-- Acknowledging a line clears its bit and no other (60_exceptions.md R174, step 5). -/
theorem getLsbD_and_not_lineBit (x : Byte) (i j : Line) :
    (x &&& ~~~lineBit i).getLsbD j.val = (x.getLsbD j.val && !decide (j = i)) := by
  rw [BitVec.getLsbD_and, BitVec.getLsbD_not, getLsbD_lineBit, decide_eq_true j.isLt, Bool.true_and]

/-! ### HLT (44_control.md R150) -/

/-- No fault of the decoder reports the reason of HLT. -/
theorem State.decodeFault_ne_hlt (s : State) (e : DecodeError) : s.decodeFault e ≠ .hlt := by
  cases e <;> exact HaltReason.noConfusion

/-- In a Running machine only HLT leaves the reason of HLT. -/
theorem State.eq_hlt_of_afterInstr_run {s : State} {i : Instr} (hr : s.run = .running)
    (h : (s.afterInstr i).run = .halted .hlt) : i = .hlt := by
  rw [State.afterInstr_run, hr] at h
  split at h
  · simp at h
  · split at h
    · assumption
    · cases h

/-- A tick that halts a Running machine with the reason of HLT has fetched the opcode of HLT, under any opcode map. -/
theorem ir_of_tick_halted_hlt {opc : OpcodeMap} {s t : State} (hr : s.run = .running) (ht : tick opc s = .next t)
    (hhlt : t.run = .halted .hlt) : t.ir = opc .hlt := by
  rcases tick_cases opc s with ⟨r, hr', _⟩ | ⟨_, _, h⟩ | ⟨_, _, e, _, h⟩ | ⟨_, hp, i, rest, hd, h⟩
  · rw [hr] at hr'; cases hr'
  · rw [h] at ht; cases ht; cases hhlt
  · rw [h] at ht; cases ht
    exact absurd (RunState.halted.inj hhlt) (State.decodeFault_ne_hlt _ e)
  · obtain rfl := exec_eq_next_iff.1 (h ▸ ht)
    obtain rfl := State.eq_hlt_of_afterInstr_run (s.beginCycle_run.trans hr) hhlt
    have hop := opc_of_dispatch (State.dispatch_of_decodeWith (s.beginCycle_pc_le hp) hd)
    rw [State.afterInstr_ir, s.beginCycle_ir_eq_read]
    exact hop.symm

/-! ### The statements of 44_control.md -/

/-- Settles O27: the frame IRET reads holds each register and PC as the delivery saved them, and of the registers the
delivery itself had changed only IS, by the acknowledgement, and SP, which the nine pops move back. -/
theorem iretAfterDeliveryRestoresTheInterruptedProgram :
    Obligations.IretAfterDeliveryRestoresTheInterruptedProgram := by
  intro s h i hpc hsp hframe
  have hcell (q : Reg) : h.load (s.reg .sp - 9#8 + BitVec.ofNat 8 q.frameOffset) = (s.deliver i).reg q :=
    (hframe _ q.frameOffset_lt).trans (s.load_deliver_reg i q)
  have hdsp : (s.deliver i).reg .sp = s.reg .sp - 9#8 := s.reg_deliver i .sp
  have hlowest : s.reg .sp - 9#8 + BitVec.ofNat 8 Reg.sp.frameOffset = s.reg .sp - 9#8 := BitVec.add_zero _
  have hbase : h.load (h.reg .sp) = s.reg .sp - 9#8 :=
    calc h.load (h.reg .sp)
      _ = h.load (s.reg .sp - 9#8 + BitVec.ofNat 8 Reg.sp.frameOffset) := by rw [hlowest, hsp, hdsp]
      _ = (s.deliver i).reg .sp := hcell .sp
      _ = s.reg .sp - 9#8 := hdsp
  have hreg {q : Reg} (hq : q ≠ .sp) : h.restoreContext.reg q = (s.deliver i).reg q := by
    rw [h.reg_restoreContext hq, hbase, hcell]
  have his : h.restoreContext.reg .is = s.reg .is &&& ~~~lineBit i := (hreg (by decide)).trans (s.reg_deliver i .is)
  refine ⟨s.deliver_interruptsEnabled i, _, exec_eq_next .iret h, ?pc, ?regs, ?line, ?others,
    h.restoreContext_interruptsEnabled⟩
  case pc =>
    have hpcCell := (hframe 8 (by decide)).trans (s.load_deliver_pc i)
    rw [State.afterInstr, h.restoreContext_pc, hbase, hpcCell, toNat_ofNat_byte hpc]
  case regs =>
    intro q hq
    rw [State.afterInstr]
    by_cases hqsp : q = .sp
    · rw [hqsp, h.reg_sp_restoreContext, hbase, BitVec.sub_add_cancel]
    · rw [hreg hqsp, s.reg_deliver, if_neg hqsp, if_neg (List.ne_of_not_mem_cons hq)]
  case line =>
    rw [State.afterInstr, his, getLsbD_and_not_lineBit, decide_eq_true rfl, Bool.not_true, Bool.and_false]
  case others =>
    intro j hj
    rw [State.afterInstr, his, getLsbD_and_not_lineBit, decide_eq_false hj, Bool.not_false, Bool.and_true]

/-- Settles O50: CALL leaves SP at the cell with the return address, so RET from there loads it and moves SP back. -/
theorem callThenRetReturnsAfterTheCall : Obligations.CallThenRetReturnsAfterTheCall := by
  intro a s hpc
  refine ⟨_, exec_call_of_le hpc a, fun h hsp hcell => ⟨_, exec_eq_next .ret h, ?pc, ?sp⟩⟩
  case pc =>
    rw [State.afterInstr, State.popPc_pc, hsp, hcell]
    exact State.load_sp_pushReturn hpc
  case sp =>
    rw [State.afterInstr, State.reg_popPc, if_pos rfl, hsp, State.jumpTo_reg,
      State.reg_sp_pushReturn, BitVec.sub_add_cancel]

/-- Settles O26: each register's and PC's cell in the frame that the loaded SP points at. -/
theorem iretPopsRegistersThenPc : Obligations.IretPopsRegistersThenPc := by
  refine ⟨decodesF0_of_decodeOperands fun _ => rfl, rfl, fun s => ⟨_, exec_eq_next .iret s, ?_⟩⟩
  have hreg (q : Reg) (hq : q ≠ .sp) := s.reg_restoreContext hq
  exact ⟨hreg .is (by decide), hreg .im (by decide), hreg .r4 (by decide), hreg .r3 (by decide),
    hreg .r2 (by decide), hreg .r1 (by decide), hreg .r0 (by decide), s.restoreContext_pc, s.reg_sp_restoreContext,
    s.restoreContext_interruptsEnabled, s.restoreContext_overflow, fun a _ => s.restoreContext_load a,
    s.restoreContext_ir, s.restoreContext_run, s.restoreContext_out, s.restoreContext_clockStarted⟩

/-- Settles O42: JMP writes PC alone. -/
theorem jmpSetsPcToTheRegister : Obligations.JmpSetsPcToTheRegister := by
  refine ⟨decodesF1_of_decodeOperands fun _ => rfl, rfl, fun a s => ⟨_, exec_eq_next (.jmp a) s, ?_⟩⟩
  exact ⟨rfl, rfl, fun _ _ => rfl, fun _ _ => rfl, rfl, rfl, rfl, rfl, rfl⟩

/-- Settles O43: where the return address is a byte CALL is one push of it, and a jump to the register as it stands
after the decrement of SP; elsewhere it only halts. -/
theorem callPushesTheReturnAddressAndJumps : Obligations.CallPushesTheReturnAddressAndJumps := by
  refine ⟨decodesF1_of_decodeOperands fun _ => rfl, rfl, fun a s => ⟨fun hpc => ⟨_, exec_call_of_le hpc a, ?_⟩,
    fun hpc => exec_call_of_gt hpc a⟩⟩
  have htarget : s.decSp.reg a = if a = .sp then s.reg .sp - 1#8 else s.reg a := s.reg_decSp a
  have hregs : OnlyRegsChange [.sp] s s.pushReturn := s.onlyRegsChange_push _
  have hcells : OnlyCellsChange [s.decSp.reg .sp] s s.pushReturn := s.onlyCellsChange_push _
  exact ⟨s.reg_decSp .sp, rfl, State.load_sp_pushReturn hpc, congrArg BitVec.toNat htarget, rfl, hregs,
    hcells, rfl, rfl, rfl, rfl, rfl⟩

/-- Settles O44: RET is one pop into PC. -/
theorem retPopsThePc : Obligations.RetPopsThePc := by
  refine ⟨decodesF0_of_decodeOperands fun _ => rfl, rfl, fun s => ⟨_, exec_eq_next .ret s, ?_⟩⟩
  exact ⟨s.popPc_pc, s.reg_popPc .sp, rfl, s.onlyRegsChange_popPc, fun _ _ => rfl, rfl, rfl, rfl, rfl, rfl⟩

/-- Settles O45: HLT writes the run state alone, a halted machine stays as it is, and only HLT's own tick leaves that
reason. -/
theorem hltHaltsAndLeavesEverythingElse : Obligations.HltHaltsAndLeavesEverythingElse :=
  ⟨decodesF0_of_decodeOperands fun _ => rfl, rfl, fun s => ⟨rfl, fun opc => tick_of_halted opc rfl,
    fun l => raiseInterrupt_of_halted rfl l.isLt, fun opc t => ir_of_tick_halted_hlt⟩⟩

end Machine
end Sys2Proof

/-! SUPPORT. The print instructions: what emitting one event leaves, and the statements of 45_output.md. -/

namespace Sys2Proof.Machine

/-- An instruction that emits one event and advances PC changes nothing else (45_output.md R161, R162). -/
theorem State.emit_advance_effect (s : State) (e : OutEvent) (n : Nat) :
    let t := (s.emit e).advance n
    t.out = s.out ++ [e] ∧ t.pc = s.pc + n ∧ t.overflow = s.overflow ∧
      OnlyRegsChange [] s t ∧ OnlyCellsChange [] s t ∧ ControlKept s t :=
  ⟨rfl, rfl, rfl, fun _ _ => rfl, fun _ _ => rfl, rfl, rfl, rfl, rfl⟩

/-! ### The statements of 45_output.md -/

/-- Settles O46: PRN emits the decimal of the register it reads, and advances. -/
theorem prnEmitsTheRegisterInDecimal : Obligations.PrnEmitsTheRegisterInDecimal :=
  ⟨decodesF1_of_decodeOperands fun _ => rfl, rfl,
    fun a s => ⟨_, exec_eq_next (.prn a) s, s.emit_advance_effect (.dec (s.reg a)) 2⟩⟩

/-- Settles O47: PRA emits the character of the register it reads, and advances. -/
theorem praEmitsTheRegisterAsACharacter : Obligations.PraEmitsTheRegisterAsACharacter :=
  ⟨decodesF1_of_decodeOperands fun _ => rfl, rfl,
    fun a s => ⟨_, exec_eq_next (.pra a) s, s.emit_advance_effect (.chr (s.reg a)) 2⟩⟩

end Sys2Proof.Machine

/-! SUPPORT. The interrupts: the line the controller chooses, what a delivery leaves in registers and memory, what
raising a line does, and the statements of 60_exceptions.md. -/

namespace Sys2Proof.Machine

/-! ### The line the controller chooses (60_exceptions.md R172, R173) -/

theorem lowestLine_eq_find? (m : Byte) : lowestLine m = Fin.find? fun i : Line => m.getLsbD i.val :=
  have hall : Line.all = List.finRange 8 := by decide
  (congrArg (List.find? _) hall).trans Fin.find?_eq_find?_finRange.symm

theorem lowestLine_eq_some_iff {m : Byte} {i : Line} :
    lowestLine m = some i ↔ m.getLsbD i.val = true ∧ ∀ j : Line, j < i → ¬m.getLsbD j.val = true := by
  simp only [lowestLine_eq_find?, Fin.find?_eq_some_iff, Bool.not_eq_true]

theorem lowestLine_eq_none_iff {m : Byte} : lowestLine m = none ↔ m = 0 := by
  rw [lowestLine_eq_find?, Fin.find?_eq_none_iff]
  constructor
  · exact fun h => BitVec.eq_of_getLsbD_eq fun k hk => (h ⟨k, hk⟩).trans BitVec.getLsbD_zero.symm
  · rintro rfl _
    exact BitVec.getLsbD_zero

theorem State.pendingLine_of_disabled {s : State} (h : s.interruptsEnabled = false) : s.pendingLine = none := by
  rw [State.pendingLine, h, if_neg Bool.false_ne_true]

theorem State.pendingLine_of_enabled {s : State} (h : s.interruptsEnabled = true) :
    s.pendingLine = lowestLine (s.reg .is &&& s.reg .im) := by
  rw [State.pendingLine, if_pos h]

/-- The line serviced is the lowest that is both pending and unmasked, and only with the global enable set. -/
theorem State.pendingLine_eq_some_iff {s : State} {i : Line} :
    s.pendingLine = some i ↔ s.interruptsEnabled = true ∧
      ((s.reg .is).getLsbD i.val = true ∧ (s.reg .im).getLsbD i.val = true) ∧
      ∀ j : Line, j < i → ¬((s.reg .is).getLsbD j.val = true ∧ (s.reg .im).getLsbD j.val = true) := by
  cases h : s.interruptsEnabled with
  | false => simp only [State.pendingLine_of_disabled h, reduceCtorEq, Bool.false_eq_true, false_and]
  | true =>
    simp only [State.pendingLine_of_enabled h, lowestLine_eq_some_iff, BitVec.getLsbD_and, Bool.and_eq_true, true_and]

theorem State.pendingLine_eq_none_iff {s : State} :
    s.pendingLine = none ↔ s.interruptsEnabled = false ∨ s.reg .is &&& s.reg .im = 0 := by
  cases h : s.interruptsEnabled with
  | false => simp only [State.pendingLine_of_disabled h, true_or]
  | true => simp only [State.pendingLine_of_enabled h, lowestLine_eq_none_iff, reduceCtorEq, false_or]

theorem State.interruptControllerStep_of_none {s : State} (h : s.pendingLine = none) :
    s.interruptControllerStep = s := by
  rw [State.interruptControllerStep, h]

theorem State.interruptControllerStep_of_some {s : State} {i : Line} (h : s.pendingLine = some i) :
    s.interruptControllerStep = s.deliver i := by
  rw [State.interruptControllerStep, h]

/-- A line that is pending and unmasked holds off every higher line. -/
theorem State.exists_pendingLine_le {s : State} {l : Line} (hen : s.interruptsEnabled = true)
    (his : (s.reg .is).getLsbD l.val = true) (him : (s.reg .im).getLsbD l.val = true) :
    ∃ j ≤ l, s.pendingLine = some j := by
  cases h : s.pendingLine with
  | none =>
    rw [State.pendingLine_of_enabled hen, lowestLine_eq_find?, Fin.find?_eq_none_iff] at h
    have hclear := h l
    rw [BitVec.getLsbD_and, his, him] at hclear
    cases hclear
  | some j =>
    obtain ⟨_, _, hlowest⟩ := State.pendingLine_eq_some_iff.1 h
    exact ⟨j, not_lt.1 fun hlt => hlowest l hlt ⟨his, him⟩, rfl⟩

/-! ### What a delivery leaves (60_exceptions.md R174, R175) -/

/-- A delivery clears the pending bit of its line and of no other. -/
theorem State.getLsbD_reg_is_deliver (s : State) (i j : Line) :
    ((s.deliver i).reg .is).getLsbD j.val = ((s.reg .is).getLsbD j.val && !decide (j = i)) := by
  rw [← getLsbD_and_not_lineBit]
  exact congrArg (fun b : Byte => b.getLsbD j.val) (s.reg_deliver i .is)

theorem State.onlyRegsChange_deliver (s : State) (i : Line) : OnlyRegsChange [.is, .sp] s (s.deliver i) := by
  intro q hq
  simp only [List.mem_cons, List.not_mem_nil, or_false, not_or] at hq
  obtain ⟨his, hsp⟩ := hq
  rw [State.reg_deliver, if_neg hsp, if_neg his]

/-- A delivery leaves each register, as it stands after the delivery, in its cell counted down from SP before it. -/
theorem State.load_deliver_below_sp (s : State) (i : Line) (q : Reg) :
    (s.deliver i).load (s.reg .sp - BitVec.ofNat 8 (9 - q.frameOffset)) = (s.deliver i).reg q := by
  rw [← byte_sub_add (Nat.le_of_lt q.frameOffset_lt), State.load_deliver_reg]

theorem State.onlyCellsChange_deliver (s : State) (i : Line) :
    OnlyCellsChange [s.reg .sp - 1#8, s.reg .sp - 2#8, s.reg .sp - 3#8, s.reg .sp - 4#8, s.reg .sp - 5#8,
      s.reg .sp - 6#8, s.reg .sp - 7#8, s.reg .sp - 8#8, s.reg .sp - 9#8] s (s.deliver i) := by
  intro b hb
  simp only [List.mem_cons, List.not_mem_nil, or_false, not_or] at hb
  simp [State.load_deliver, State.load_saveContext, hb]

theorem vectorAddress_eq (i : Line) : vectorAddress i = 0xF8#8 + BitVec.ofNat 8 i.val :=
  BitVec.ofNat_add _ _

/-! ### What raising a line does (60_exceptions.md R176) -/

/-- Setting the bit of a line leaves the others. -/
theorem getLsbD_or_lineBit (x : Byte) (i j : Line) :
    (x ||| lineBit i).getLsbD j.val = (x.getLsbD j.val || decide (j = i)) := by
  rw [BitVec.getLsbD_or, getLsbD_lineBit]

/-- Pending is a bit, not a count. -/
theorem or_lineBit_of_getLsbD {x : Byte} {i : Line} (h : x.getLsbD i.val = true) : x ||| lineBit i = x := by
  refine BitVec.eq_of_getLsbD_eq fun k hk => (getLsbD_or_lineBit x i ⟨k, hk⟩).trans ?_
  by_cases hki : (⟨k, hk⟩ : Line) = i
  · subst hki
    rw [h, Bool.true_or]
  · rw [decide_eq_false hki, Bool.or_false]

/-- A register written with its own value leaves the state as it is. -/
theorem State.writeReg_reg (s : State) (r : Reg) : s.writeReg r (s.reg r).toNat = s := by
  rw [State.writeReg, narrow_byte]
  cases r <;> rfl

theorem raiseInterrupt_of_running {s : State} (h : s.run = .running) (l : Line) :
    raiseInterrupt l.val s = .next (s.writeReg .is (s.reg .is ||| lineBit l).toNat) := by
  rw [raiseInterrupt, dif_pos l.isLt, h]

theorem raiseInterrupt_of_gt {n : Nat} (h : n > 7) (s : State) : raiseInterrupt n s = .refused (.noSuchLine n) := by
  rw [raiseInterrupt, dif_neg (Nat.not_lt.2 h)]

/-! ### The statements of 60_exceptions.md -/

/-- Settles O24: the scan finds the lowest set bit of IS & IM, there is none only where that AND is 0, and the delivery
that follows acknowledges its own line alone. -/
theorem controllerServicesTheLowestEnabledPendingLine :
    Obligations.ControllerServicesTheLowestEnabledPendingLine := by
  refine fun s i => ⟨State.pendingLine_eq_some_iff, fun h => ?idle, fun hen hmasked => ?found, fun h => ?delivered⟩
  case idle => exact State.interruptControllerStep_of_none (State.pendingLine_eq_none_iff.2 h)
  case found =>
    rw [← Option.ne_none_iff_exists', Ne, State.pendingLine_eq_none_iff, hen]
    exact not_or.2 ⟨nofun, hmasked⟩
  case delivered =>
    have hstep := State.interruptControllerStep_of_some h
    refine ⟨hstep, ?_, fun j hj => ?_⟩ <;> rw [hstep, State.getLsbD_reg_is_deliver]
    · rw [decide_eq_true rfl, Bool.not_true, Bool.and_false]
    · rw [decide_eq_false hj, Bool.not_false, Bool.and_true]

/-- Settles O25: each register stands in its cell as the acknowledgement left it, PC in the cell above them, and the
vector is read in the memory that holds them. -/
theorem deliverySavesPcAndRegistersAndReadsTheVector :
    Obligations.DeliverySavesPcAndRegistersAndReadsTheVector := by
  intro s i hpc
  have hcell (q : Reg) := (s.load_deliver_below_sp i q).trans (s.reg_deliver i q)
  have hpcCell : ((s.deliver i).load (s.reg .sp - 1#8)).toNat = s.pc := by
    rw [← byte_sub_add (k := 8) (n := 9) (by decide), State.load_deliver_pc, toNat_ofNat_byte hpc]
  have hvector : (s.deliver i).pc = ((s.deliver i).load (0xF8#8 + BitVec.ofNat 8 i.val)).toNat := by
    rw [State.deliver_pc, vectorAddress_eq]
  exact ⟨hpcCell, hcell .r0, hcell .r1, hcell .r2, hcell .r3, hcell .r4, hcell .im, hcell .is, hcell .sp,
    s.onlyCellsChange_deliver i, s.reg_deliver i .sp, s.reg_deliver i .is, s.onlyRegsChange_deliver i,
    s.deliver_interruptsEnabled i, hvector, s.deliver_overflow i, s.deliver_ir i, s.deliver_run i, s.deliver_out i,
    s.deliver_clockStarted i⟩

/-- Settles O54: raising a line is one register write of IS with the line's bit set, after which no line above it can be
the lowest one that is pending and unmasked. -/
theorem raisingALineSetsItsPendingBit : Obligations.RaisingALineSetsItsPendingBit := by
  refine ⟨fun s l hrun => ⟨_, raiseInterrupt_of_running hrun l, ?bits, s.onlyRegsChange_writeReg .is _, rfl,
    ?already, ?next⟩, fun s n hn => raiseInterrupt_of_gt hn s, fun s l r hr => raiseInterrupt_of_halted hr l.isLt,
    fun _ => rfl⟩
  case bits =>
    intro j
    rw [State.reg_writeReg_byte, getLsbD_or_lineBit]
  case already =>
    intro hl
    rw [or_lineBit_of_getLsbD hl, State.writeReg_reg]
  case next =>
    intro hen him
    have his : ((s.writeReg .is (s.reg .is ||| lineBit l).toNat).reg .is).getLsbD l.val = true := by
      rw [State.reg_writeReg_byte, getLsbD_or_lineBit, decide_eq_true rfl, Bool.or_true]
    obtain ⟨j, hj, hpending⟩ := State.exists_pendingLine_le (s := s.writeReg .is _) hen his him
    exact ⟨j, hj, State.interruptControllerStep_of_some hpending⟩

end Sys2Proof.Machine

/-! SUPPORT. The encoder against the decoder and the format tables: operand bytes are exactly what the operand readers
accept and what the formats admit, and the statements of 30_encoding.md on bytes follow. -/

namespace Sys2Proof

/-! ### The operand readers against the operand bytes (30_encoding.md R72) -/

/-- Every encoding is as long as its format says, and its operand bytes are ones the format admits. -/
theorem Instr.encodesInFormat (i : Instr) : Laws.EncodesInFormat.Statement i := by
  cases i with
  | hlt => exact Laws.EncodesInFormat.hlt
  | ldi d imm => exact Laws.EncodesInFormat.ldi d imm
  | mul a b => exact Laws.EncodesInFormat.mul a b
  | add a b => exact Laws.EncodesInFormat.add a b
  | prn a => exact Laws.EncodesInFormat.prn a
  | pra a => exact Laws.EncodesInFormat.pra a
  | push a => exact Laws.EncodesInFormat.push a
  | pop d => exact Laws.EncodesInFormat.pop d
  | call a => exact Laws.EncodesInFormat.call a
  | ret => exact Laws.EncodesInFormat.ret
  | jmp a => exact Laws.EncodesInFormat.jmp a
  | st a b => exact Laws.EncodesInFormat.st a b
  | ld d b => exact Laws.EncodesInFormat.ld d b
  | iret => exact Laws.EncodesInFormat.iret

theorem length_encodeWith (opc : OpcodeMap) (i : Instr) : (encodeWith opc i).length = i.width := i.encodesInFormat.1 opc

theorem Instr.operandsWellFormed_operandBytes (i : Instr) :
    operandsWellFormed i.mnemonic.operandKinds i.operandBytes = true := i.encodesInFormat.2

/-- The operand readers give back every instruction from its own operand bytes. -/
theorem decodeOperands_operandBytes (i : Instr) : Laws.OperandsReadBack.Statement i := by
  cases i with
  | hlt => exact Laws.OperandsReadBack.hlt
  | ldi d imm => exact Laws.OperandsReadBack.ldi d imm
  | mul a b => exact Laws.OperandsReadBack.mul a b
  | add a b => exact Laws.OperandsReadBack.add a b
  | prn a => exact Laws.OperandsReadBack.prn a
  | pra a => exact Laws.OperandsReadBack.pra a
  | push a => exact Laws.OperandsReadBack.push a
  | pop d => exact Laws.OperandsReadBack.pop d
  | call a => exact Laws.OperandsReadBack.call a
  | ret => exact Laws.OperandsReadBack.ret
  | jmp a => exact Laws.OperandsReadBack.jmp a
  | st a b => exact Laws.OperandsReadBack.st a b
  | ld d b => exact Laws.OperandsReadBack.ld d b
  | iret => exact Laws.OperandsReadBack.iret

theorem eq_cons_of_takeReg_eq_ok {j : Nat} {bs tl : List Byte} {r : Reg} (h : takeReg j bs = .ok (r, tl)) :
    bs = r.toByte :: tl := by
  rcases takeReg_cases j bs with ⟨_, hr⟩ | ⟨_, _, _, _, hr⟩ | ⟨r', tl', hbs, hr⟩ <;> rw [hr] at h <;> cases h
  exact hbs

theorem eq_cons_of_takeF1_eq_ok {build : Reg → Instr} {bs rest : List Byte} {i : Instr}
    (h : takeF1 build bs = .ok (i, rest)) : ∃ a, i = build a ∧ bs = a.toByte :: rest := by
  rw [takeF1_eq] at h
  split at h
  · cases h
  · next ha => cases h; exact ⟨_, rfl, eq_cons_of_takeReg_eq_ok ha⟩

theorem eq_cons_of_takeF2R_eq_ok {build : Reg → Reg → Instr} {bs rest : List Byte} {i : Instr}
    (h : takeF2R build bs = .ok (i, rest)) : ∃ a b, i = build a b ∧ bs = a.toByte :: b.toByte :: rest := by
  rw [takeF2R_eq] at h
  split at h
  · cases h
  · next ha =>
    split at h
    · cases h
    · next hb =>
      cases h
      exact ⟨_, _, rfl, eq_cons_of_takeReg_eq_ok hb ▸ eq_cons_of_takeReg_eq_ok ha⟩

theorem eq_cons_of_takeF2I_eq_ok {build : Reg → Byte → Instr} {bs rest : List Byte} {i : Instr}
    (h : takeF2I build bs = .ok (i, rest)) : ∃ d imm, i = build d imm ∧ bs = d.toByte :: imm :: rest := by
  rw [takeF2I_eq] at h
  split at h
  · cases h
  · next tl hd =>
    cases tl with
    | nil => cases h
    | cons imm tl => cases h; exact ⟨_, _, rfl, eq_cons_of_takeReg_eq_ok hd⟩

/-- What the operand readers accept is the operand bytes of the instruction they answer, whole and in order. -/
theorem eq_operandBytes_of_decodeOperands {m : Mnemonic} {bs rest : List Byte} {i : Instr}
    (h : decodeOperands m bs = .ok (i, rest)) : bs = i.operandBytes ++ rest := by
  cases m with
  | hlt | ret | iret => cases h; rfl
  | prn | pra | push | pop | call | jmp => obtain ⟨a, rfl, rfl⟩ := eq_cons_of_takeF1_eq_ok h; rfl
  | mul | add | st | ld => obtain ⟨a, b, rfl, rfl⟩ := eq_cons_of_takeF2R_eq_ok h; rfl
  | ldi => obtain ⟨d, imm, rfl, rfl⟩ := eq_cons_of_takeF2I_eq_ok h; rfl

/-- What the decoder accepts is the encoding of the instruction it answers. -/
theorem eq_encodeWith_of_decodeWith {opc : OpcodeMap} {bs rest : List Byte} {i : Instr}
    (h : decodeWith opc bs = .ok (i, rest)) : bs = encodeWith opc i ++ rest := by
  cases bs with
  | nil => cases h
  | cons op bs =>
    cases hm : dispatch opc op with
    | none => rw [decodeWith_cons_of_unmapped hm] at h; cases h
    | some m =>
      rw [decodeWith_cons hm] at h
      rw [encodeWith, mnemonic_of_decodeOperands h, opc_of_dispatch hm, List.cons_append,
        ← eq_operandBytes_of_decodeOperands h]

theorem decodeWith_encodeWith {opc : OpcodeMap} (h : opc.Admissible) (i : Instr) (rest : List Byte) :
    decodeWith opc (encodeWith opc i ++ rest) = .ok (i, rest) :=
  (decodeWith_opc h i.mnemonic _).trans (decodeOperands_operandBytes i rest)

/-! ### The operand bytes against the format tables (30_encoding.md R74, R79) -/

theorem operandsWellFormed_nil {bs : List Byte} (h : operandsWellFormed [] bs = true) : bs = [] := by
  cases bs with
  | nil => rfl
  | cons => cases h

theorem operandsWellFormed_cons {k : OperandKind} {ks : List OperandKind} {bs : List Byte}
    (h : operandsWellFormed (k :: ks) bs = true) :
    ∃ b tl, bs = b :: tl ∧ k.admits b = true ∧ operandsWellFormed ks tl = true := by
  cases bs with
  | nil => cases h
  | cons b tl => exact ⟨b, tl, rfl, Bool.and_eq_true_iff.1 h⟩

theorem exists_toByte_of_admits_register {b : Byte} (h : OperandKind.register.admits b = true) :
    ∃ r : Reg, b = r.toByte := by
  have hle : b.toNat ≤ 7 := of_decide_eq_true h
  cases hb : Reg.ofByte? b with
  | none => exact absurd (Reg.ofByte?_eq_none.1 hb) (Nat.not_lt.2 hle)
  | some r => exact ⟨r, (Reg.toByte_of_ofByte? hb).symm⟩

/-- A register operand that the tables admit is the byte of a register. -/
theorem operandsWellFormed_register_cons {ks : List OperandKind} {bs : List Byte}
    (h : operandsWellFormed (.register :: ks) bs = true) :
    ∃ (r : Reg) (tl : List Byte), bs = r.toByte :: tl ∧ operandsWellFormed ks tl = true := by
  obtain ⟨b, tl, rfl, hb, htl⟩ := operandsWellFormed_cons h
  obtain ⟨r, rfl⟩ := exists_toByte_of_admits_register hb
  exact ⟨r, tl, rfl, htl⟩

theorem takeF1_toByte (build : Reg → Instr) (a : Reg) (rest : List Byte) :
    takeF1 build (a.toByte :: rest) = .ok (build a, rest) := by
  rw [takeF1_eq, takeReg_toByte]

theorem takeF2R_toByte (build : Reg → Reg → Instr) (a b : Reg) (rest : List Byte) :
    takeF2R build (a.toByte :: b.toByte :: rest) = .ok (build a b, rest) := by
  simp only [takeF2R_eq, takeReg_toByte]

theorem takeF2I_toByte (build : Reg → Byte → Instr) (d : Reg) (imm : Byte) (rest : List Byte) :
    takeF2I build (d.toByte :: imm :: rest) = .ok (build d imm, rest) := by
  simp only [takeF2I_eq, takeReg_toByte, takeByte_cons]

/-- The operand readers accept, with nothing left, the operand bytes that the tables admit. -/
theorem exists_decodeOperands_of_operandsWellFormed {m : Mnemonic} {bs : List Byte}
    (h : operandsWellFormed m.operandKinds bs = true) : ∃ i, decodeOperands m bs = .ok (i, []) := by
  cases m with
  | hlt | ret | iret =>
    obtain rfl := operandsWellFormed_nil h
    exact ⟨_, rfl⟩
  | prn | pra | push | pop | call | jmp =>
    obtain ⟨a, tl, rfl, htl⟩ := operandsWellFormed_register_cons h
    obtain rfl := operandsWellFormed_nil htl
    exact ⟨_, takeF1_toByte _ a []⟩
  | mul | add | st | ld =>
    obtain ⟨a, tl, rfl, htl⟩ := operandsWellFormed_register_cons h
    obtain ⟨b, tl, rfl, hnil⟩ := operandsWellFormed_register_cons htl
    obtain rfl := operandsWellFormed_nil hnil
    exact ⟨_, takeF2R_toByte _ a b []⟩
  | ldi =>
    obtain ⟨d, tl, rfl, htl⟩ := operandsWellFormed_register_cons h
    obtain ⟨imm, tl, rfl, _, hnil⟩ := operandsWellFormed_cons htl
    obtain rfl := operandsWellFormed_nil hnil
    exact ⟨_, takeF2I_toByte _ d imm []⟩

/-- The format tables read bytes as an opcode and operand bytes of one mnemonic. -/
theorem bytesWellFormed_cons_iff {opc : OpcodeMap} {op : Byte} {bs : List Byte} :
    bytesWellFormed opc (op :: bs) = true ↔ ∃ m, opc m = op ∧ operandsWellFormed m.operandKinds bs = true := by
  simp [bytesWellFormed, Mnemonic.mem_all]

theorem bytesWellFormed_encodeWith (opc : OpcodeMap) (i : Instr) : bytesWellFormed opc (encodeWith opc i) = true :=
  bytesWellFormed_cons_iff.2 ⟨i.mnemonic, rfl, i.operandsWellFormed_operandBytes⟩

/-! ### How many bytes are mapped (30_encoding.md R76, R78) -/

/-- The mapped bytes, as numbers in order, are the fourteen opcodes in another order. -/
theorem OpcodeMap.Admissible.mapped_perm {opc : OpcodeMap} (h : opc.Admissible) :
    ((List.range 256).filter fun n => ¬dispatch opc (BitVec.ofNat 8 n) = none).Perm
      ((Mnemonic.all.map opc).map BitVec.toNat) := by
  refine (List.perm_ext_iff_of_nodup (List.nodup_range.filter _) ?nodup).2 fun n => ?mem
  case nodup => exact h.nodup_map_all.map fun _ _ => BitVec.eq_of_toNat_eq
  case mem =>
    simp only [List.mem_filter, List.mem_range, decide_eq_true_eq, Option.ne_none_iff_isSome, dispatch_isSome_iff,
      List.mem_map (f := BitVec.toNat)]
    constructor
    · rintro ⟨hn, hmem⟩
      exact ⟨_, hmem, by rw [BitVec.toNat_ofNat, Nat.mod_eq_of_lt hn]⟩
    · rintro ⟨b, hmem, rfl⟩
      exact ⟨b.isLt, by rwa [BitVec.ofNat_toNat, BitVec.setWidth_eq]⟩

/-- An admissible map leaves 242 of the 256 bytes unmapped. -/
theorem OpcodeMap.Admissible.length_unmapped {opc : OpcodeMap} (h : opc.Admissible) :
    ((List.range 256).filter fun n => dispatch opc (BitVec.ofNat 8 n) = none).length = 242 := by
  have hall := List.length_eq_length_filter_add (l := List.range 256)
    fun n => decide (dispatch opc (BitVec.ofNat 8 n) = none)
  have hmapped := h.mapped_perm.length_eq
  simp only [decide_not, List.length_map, List.length_range] at hall hmapped
  have hfourteen : Mnemonic.all.length = 14 := rfl
  omega

/-! ### The statements of 30_encoding.md on bytes -/

/-- Settles O8: the opcode dispatches to its own mnemonic, whose operand readers read back the operand bytes. -/
theorem decodeOfEncodeIsTheInstruction : Obligations.DecodeOfEncodeIsTheInstruction :=
  fun _ => decodeWith_encodeWith

/-- Settles O9: each operand reader accepts only the bytes of what it answers. -/
theorem encodeOfDecodeIsTheBytes : Obligations.EncodeOfDecodeIsTheBytes :=
  fun opc _ i _ h => ⟨eq_encodeWith_of_decodeWith h, length_encodeWith opc i⟩

/-- Settles O10: what is decoded is an encoding, which the tables admit, and what the tables admit is an opcode, which
dispatches, and operand bytes, which the readers accept. -/
theorem decoderAcceptsExactlyTheWellFormedBytes : Obligations.DecoderAcceptsExactlyTheWellFormedBytes := by
  refine fun opc hopc bs => ⟨fun ⟨i, hi⟩ => ?_, fun hbs => ?_⟩
  · rw [eq_encodeWith_of_decodeWith hi, List.append_nil]
    exact bytesWellFormed_encodeWith opc i
  · cases bs with
    | nil => cases hbs
    | cons op bs =>
      obtain ⟨m, rfl, hm⟩ := bytesWellFormed_cons_iff.1 hbs
      obtain ⟨i, hi⟩ := exists_decodeOperands_of_operandsWellFormed hm
      exact ⟨i, (decodeWith_opc hopc m bs).trans hi⟩

/-- The default map's dispatch table inverts it. -/
theorem dispatch_opcDefault (m : Mnemonic) : dispatch opcDefault (opcDefault m) = some m := by
  cases m <;> decide

theorem opcDefault_admissible : opcDefault.Admissible := by
  refine ⟨fun m n h => ?_, fun m => ?_⟩
  · exact Option.some.inj ((dispatch_opcDefault m).symm.trans (h ▸ dispatch_opcDefault n))
  · cases m <;> decide

/-- Settles O12: the dispatch table of the default map inverts it, so it maps fourteen of the 256 bytes. -/
theorem defaultMapLeaves242BytesUnmapped : Obligations.DefaultMapLeaves242BytesUnmapped :=
  ⟨opcDefault_admissible, opcDefault_admissible.length_unmapped, by decide, by decide⟩

/-- Settles O13, by evaluating the decoder on each word. -/
theorem sampleWordsDecodeAsTheTablesSay : Obligations.SampleWordsDecodeAsTheTablesSay := by
  unfold Obligations.SampleWordsDecodeAsTheTablesSay
  decide

end Sys2Proof

/-! SUPPORT. The register and memory frames of every instruction and of a tick, what a sequence of pushes leaves, and
the statements over all instructions of 10_state.md, 20_memory.md, 60_exceptions.md and 70_reset_and_hazards.md. -/

namespace Sys2Proof.Machine

/-! ### The frames of an instruction (10_state.md R25, 20_memory.md R56) -/

theorem State.onlyRegsChange_afterInstr (s : State) (i : Instr) :
    OnlyRegsChange (writtenRegs i) s (s.afterInstr i) := by
  cases i with
  | ldi d _ | mul d _ | add d _ | ld d _ => exact s.onlyRegsChange_writeReg d _
  | push a => exact s.onlyRegsChange_pushReg a
  | pop d => exact s.onlyRegsChange_popReg d
  | call a =>
    rw [State.afterInstr]
    split
    · exact fun _ _ => rfl
    · exact s.onlyRegsChange_push fun _ => BitVec.ofNat 8 (s.pc + 2)
  | ret => exact s.onlyRegsChange_popPc
  | iret => exact fun r hr => absurd (by cases r <;> decide) hr
  | hlt | prn _ | pra _ | jmp _ | st _ _ => exact fun _ _ => rfl

theorem State.onlyCellsChange_afterInstr (s : State) (i : Instr) :
    OnlyCellsChange (s.storedAddresses i) s (s.afterInstr i) := by
  cases i with
  | push a => exact s.onlyCellsChange_pushReg a
  | call a =>
    rw [State.afterInstr, State.storedAddresses]
    split
    · exact fun _ _ => rfl
    · exact s.onlyCellsChange_push fun _ => BitVec.ofNat 8 (s.pc + 2)
  | st a b => exact s.onlyCellsChange_store _ _
  | iret => exact fun a _ => s.restoreContext_load a
  | hlt | ldi _ _ | mul _ _ | add _ _ | prn _ | pra _ | pop _ | ret | jmp _ | ld _ _ => exact fun _ _ => rfl

/-! ### The registers over a tick (60_exceptions.md R178) -/

/-- After a tick a register holds what it held before, or what the controller's step left in it, or the tick has
executed an instruction that writes it. -/
theorem tick_reg_cases {opc : OpcodeMap} {s t : State} (h : tick opc s = .next t) (q : Reg) :
    t.reg q = s.reg q ∨ t.reg q = s.interruptControllerStep.reg q ∨
      ∃ i rest, decodeWith opc s.beginCycle.instrBytes = .ok (i, rest) ∧ q ∈ writtenRegs i := by
  rcases tick_cases opc s with ⟨_, _, ht⟩ | ⟨_, _, ht⟩ | ⟨_, _, _, _, ht⟩ | ⟨_, _, i, rest, hd, ht⟩ <;> rw [ht] at h
  · cases h; exact .inl rfl
  · cases h; exact .inl rfl
  · cases h; exact .inr (.inl (s.beginCycle_reg q))
  · obtain rfl := exec_eq_next_iff.1 h
    by_cases hq : q ∈ writtenRegs i
    · exact .inr (.inr ⟨i, rest, hd, hq⟩)
    · exact .inr (.inl ((s.beginCycle.onlyRegsChange_afterInstr i q hq).trans (s.beginCycle_reg q)))

theorem State.reg_im_interruptControllerStep (s : State) : s.interruptControllerStep.reg .im = s.reg .im := by
  rcases s.interruptControllerStep_cases with ⟨_, h⟩ | ⟨i, _, h⟩ <;> rw [h]
  exact s.onlyRegsChange_deliver i .im (by decide)

/-- The controller's step clears no pending line but the one it delivers. -/
theorem State.pendingLine_of_cleared {s : State} {l : Line} (hset : (s.reg .is).getLsbD l.val = true)
    (hclear : (s.interruptControllerStep.reg .is).getLsbD l.val = false) : s.pendingLine = some l := by
  rcases s.interruptControllerStep_cases with ⟨_, h⟩ | ⟨i, hi, h⟩ <;> rw [h] at hclear
  · rw [hset] at hclear; cases hclear
  · rw [State.getLsbD_reg_is_deliver, hset, Bool.true_and] at hclear
    rw [hi, show l = i by simpa using hclear]

/-! ### A sequence of pushes (43_stack.md R133) -/

theorem byte_pred_sub (x : Byte) (n : Nat) : x - 1#8 - BitVec.ofNat 8 n = x - BitVec.ofNat 8 (n + 1) := by
  rw [BitVec.ofNat_add]; bv_omega

theorem State.reg_sp_foldl_pushReg (rs : List Reg) (s : State) :
    (rs.foldl State.pushReg s).reg .sp = s.reg .sp - BitVec.ofNat 8 rs.length := by
  induction rs generalizing s with
  | nil => exact (BitVec.sub_zero _).symm
  | cons r rs ih =>
    rw [List.foldl_cons, ih, State.reg_pushReg, if_pos rfl, List.length_cons, byte_pred_sub]

theorem State.reg_foldl_pushReg (rs : List Reg) (s : State) {q : Reg} (hq : q ≠ .sp) :
    (rs.foldl State.pushReg s).reg q = s.reg q := by
  induction rs generalizing s with
  | nil => rfl
  | cons r rs ih => rw [List.foldl_cons, ih, State.reg_pushReg, if_neg hq]

/-- Pushes write only the cells that SP passes. -/
theorem State.load_foldl_pushReg (rs : List Reg) (s : State) (a : Byte)
    (h : ∀ k, k < rs.length → a ≠ s.reg .sp - BitVec.ofNat 8 (k + 1)) :
    (rs.foldl State.pushReg s).load a = s.load a := by
  induction rs generalizing s with
  | nil => rfl
  | cons r rs ih =>
    rw [List.foldl_cons, ih, State.load_pushReg, if_neg (h 0 (Nat.succ_pos _))]
    intro k hk
    rw [State.reg_pushReg, if_pos rfl, byte_pred_sub]
    exact h (k + 1) (Nat.succ_lt_succ hk)

/-- Up to 248 pushes from 0xF8 stay below the vector table (90_conflicts.md C1). -/
theorem vector_ne_below_stack {a : Byte} (ha : 0xF8 ≤ a.toNat) {k : Nat} (hk : k < 248) :
    a ≠ 0xF8#8 - BitVec.ofNat 8 (k + 1) := by
  bv_omega

/-! ### The statements over all instructions -/

/-- Settles O30: the hidden fields pass through each instruction, or are overwritten by it, and touch nothing else. -/
theorem hiddenStateIsNotReadByInstructions : Obligations.HiddenStateIsNotReadByInstructions := by
  intro i s t x b e h
  obtain rfl := exec_eq_next_iff.1 h
  refine ⟨_, exec_eq_next i _, ?_⟩
  rw [s.afterInstr_hidden i x b e]
  exact ⟨rfl, rfl, rfl, rfl, rfl⟩

/-- Settles O31: of the registers IS and IM, the controller's step clears the delivered line's bit and nothing else, so
what else a tick changes in them its instruction has written. -/
theorem pendingLinesAreClearedOnlyByDeliveryOrAWriteToR6 :
    Obligations.PendingLinesAreClearedOnlyByDeliveryOrAWriteToR6 := by
  refine fun opc s t h => ⟨fun l hset hclear => ?_, fun him => ?_⟩
  · rcases tick_reg_cases h .is with heq | heq | hwritten
    · rw [heq, hset] at hclear; cases hclear
    · exact .inl (State.pendingLine_of_cleared hset (heq ▸ hclear))
    · exact .inr hwritten
  · rcases tick_reg_cases h .im with heq | heq | hwritten
    · exact absurd heq him
    · exact absurd (heq.trans s.reg_im_interruptControllerStep) him
    · exact hwritten

/-- Settles O32, by the register frame of each instruction's operations. -/
theorem registersChangeOnlyWhereTheInstructionSays : Obligations.RegistersChangeOnlyWhereTheInstructionSays := by
  intro i s t h
  obtain rfl := exec_eq_next_iff.1 h
  exact s.onlyRegsChange_afterInstr i

/-- Settles O33, by the memory frame of each instruction's operations. -/
theorem memoryChangesOnlyAtTheStoredAddress : Obligations.MemoryChangesOnlyAtTheStoredAddress := by
  intro i s t h
  obtain rfl := exec_eq_next_iff.1 h
  exact s.onlyCellsChange_afterInstr i

/-- Settles O51: SP counts the pushes, so 248 of them from 0xF8 end at 0 with the vector table untouched, and the next
wraps to 0xFF. -/
theorem pushesReachTheVectorTableOnlyByWrapAround : Obligations.PushesReachTheVectorTableOnlyByWrapAround := by
  refine fun rs s => ⟨s.reg_sp_foldl_pushReg rs, s.load_foldl_pushReg rs, fun hsp hlen a ha => ?_,
    fun hsp hlen r => ?_⟩
  · refine s.load_foldl_pushReg rs a fun k hk => ?_
    rw [hsp]
    exact vector_ne_below_stack ha (Nat.lt_of_lt_of_le hk hlen)
  · have hzero : (rs.foldl State.pushReg s).reg .sp = 0#8 := by
      rw [s.reg_sp_foldl_pushReg, hsp, hlen]; rfl
    have hwrap : 0#8 - 1#8 = 0xFF#8 := rfl
    rw [State.reg_pushReg, State.load_pushReg, if_pos rfl, hzero, hwrap, if_pos rfl]
    refine ⟨rfl, ?_⟩
    split
    · rfl
    · next hr => exact s.reg_foldl_pushReg rs hr

/-- Settles O52: the next fetch reads the cell that ST has stored to. -/
theorem storeIntoCodeIsSeenByTheNextFetch : Obligations.StoreIntoCodeIsSeenByTheNextFetch := by
  intro a b s t u h hmem hpc
  obtain rfl := exec_eq_next_iff.1 h
  have hread : u.mem.read u.pc = s.reg b := by
    rw [hmem, hpc]
    exact s.load_store_same (s.reg a) (s.reg b)
  have hle : u.pc ≤ 255 := hpc ▸ Nat.le_of_lt_succ (BitVec.isLt _)
  exact ⟨hread, by rw [u.instrBytes_eq_cons hle, hread]; rfl⟩

end Sys2Proof.Machine

/-! SUPPORT. The canonical form of memory against what a memory reads: the form lists exactly the cells that do not read
as an unlisted one, and the statements of 20_memory.md on the form follow. -/

namespace Sys2Proof.Machine

/-! ### The listed cells and the reads -/

/-- A cell that reads as no unlisted one is listed. -/
theorem Memory.mem_of_read (m : Memory) {a : Nat} (h : m.read a ≠ Config.unlistedByte) : (a, m.read a) ∈ m := by
  induction m with
  | nil => exact absurd rfl h
  | cons c m ih =>
    obtain ⟨k, v⟩ := c
    rw [Memory.read_cons] at h ⊢
    split at h
    · next hk => simp [hk]
    · next hk => rw [if_neg hk]; exact List.mem_cons_of_mem _ (ih h)

/-- In rising order of addresses every listed cell is the one that is read. -/
theorem Memory.read_of_mem {m : Memory} (hm : m.Pairwise fun c d => c.1 < d.1) {c : Host.Cell} (hc : c ∈ m) :
    m.read c.1 = c.2 := by
  induction m with
  | nil => cases hc
  | cons d m ih =>
    obtain ⟨hd, hm⟩ := List.pairwise_cons.1 hm
    rw [Memory.read_cons]
    rcases List.mem_cons.1 hc with rfl | hc
    · exact if_pos rfl
    · rw [if_neg (hd c hc).ne, ih hm hc]

/-- A canonical memory lists exactly the cells that do not read as an unlisted one. -/
theorem Memory.wf.mem_iff {m : Memory} (hm : m.wf) (c : Host.Cell) :
    c ∈ m ↔ m.read c.1 = c.2 ∧ c.2 ≠ Config.unlistedByte := by
  refine ⟨fun hc => ⟨Memory.read_of_mem hm.1 hc, (hm.2 c hc).2⟩, fun ⟨hread, hne⟩ => ?_⟩
  have hmem := m.mem_of_read (hread ▸ hne)
  rwa [hread] at hmem

/-- Any bytes for the cells below a bound are read from some canonical memory: they are written one by one. -/
theorem Memory.exists_wf_read_eq (f : Nat → Byte) (n : Nat) (hn : n ≤ 256) :
    ∃ m : Memory, m.wf ∧ ∀ a < n, m.read a = f a := by
  induction n with
  | zero => exact ⟨[], by decide, nofun⟩
  | succ n ih =>
    obtain ⟨m, hm, hread⟩ := ih (by omega)
    refine ⟨m.write n (f n), m.wf_write n _ hm (by omega), fun a ha => ?_⟩
    rw [Memory.read_write]
    split
    · next h => rw [h]
    · next h => exact hread a (by omega)

/-! ### The statements of 20_memory.md on the canonical form -/

/-- Settles O6: memories that read alike list the same cells, and rising order leaves one list of them. -/
theorem canonicalMemoriesWithEqualReadsAreEqual : Obligations.CanonicalMemoriesWithEqualReadsAreEqual := by
  intro m n hm hn h
  have hirrefl : Std.Irrefl fun c d : Host.Cell => c.1 < d.1 := ⟨fun c => lt_irrefl c.1⟩
  have hantisymm : Std.Antisymm fun c d : Host.Cell => c.1 < d.1 := ⟨fun _ _ h h' => absurd h' h.asymm⟩
  exact hm.1.eq_of_mem_iff hn.1 fun c => by rw [hm.mem_iff, hn.mem_iff, h]

/-- Settles O7: the 256 bytes are written one by one into the empty memory. -/
theorem everyMemoryContentIsRepresentable : Obligations.EveryMemoryContentIsRepresentable := by
  intro f
  obtain ⟨m, hm, hread⟩ := Memory.exists_wf_read_eq (fun a => f (BitVec.ofNat 8 a)) 256 le_rfl
  refine ⟨m, hm, fun a => (hread a.toNat a.isLt).trans ?_⟩
  rw [BitVec.ofNat_toNat, BitVec.setWidth_eq]

end Sys2Proof.Machine

/-! SUPPORT. The decimal digits of a byte, and the statement of 45_output.md on the text of an event. -/

namespace Sys2Proof.Machine

/-! ### Decimal digits (45_output.md R160) -/

theorem decimalDigits_ne_nil (n : Nat) : decimalDigits n ≠ [] := by
  unfold decimalDigits
  split
  · simp
  · split <;> simp

theorem lt_ten_of_mem_decimalDigits {n d : Nat} (hn : n < 1000) (hd : d ∈ decimalDigits n) : d < 10 := by
  unfold decimalDigits at hd
  split at hd
  · rwa [List.mem_singleton.1 hd]
  · split at hd <;> simp only [List.mem_cons, List.not_mem_nil, or_false] at hd <;> omega

/-- No leading zero: only the digits of 0 begin with 0. -/
theorem decimalDigits_eq_of_head?_eq_zero {n : Nat} (h : (decimalDigits n).head? = some 0) : decimalDigits n = [0] := by
  unfold decimalDigits at h ⊢
  split at h
  · next hlt => rw [if_pos hlt, Option.some.inj h]
  · split at h <;> · have := Option.some.inj h; omega

/-- The digits read in base ten are the number. -/
theorem foldl_decimalDigits {n : Nat} (hn : n < 1000) : (decimalDigits n).foldl (fun acc d => 10 * acc + d) 0 = n := by
  unfold decimalDigits
  split
  · simp
  · split <;> simp only [List.foldl_cons, List.foldl_nil] <;> omega

/-! ### The statement of 45_output.md on the text -/

/-- Settles O48: the text of a decimal is its digits as characters, each moved by the code of `0`. -/
theorem outputEventsRenderAsDecimalOrCharacter : Obligations.OutputEventsRenderAsDecimalOrCharacter := by
  intro v
  have hv : v.toNat < 1000 := v.isLt.trans (by decide)
  refine ⟨⟨(decimalDigits v.toNat).map (0x30 + ·), rfl, ?nonempty, ?digits, ?leading, ?value⟩, rfl⟩
  case nonempty => exact mt List.map_eq_nil_iff.1 (decimalDigits_ne_nil _)
  case digits =>
    refine List.forall_mem_map.2 fun d hd => ?_
    have := lt_ten_of_mem_decimalDigits hv hd
    omega
  case leading =>
    intro h
    rw [List.head?_map, Option.map_eq_some_iff] at h
    obtain ⟨d, hd, hzero⟩ := h
    obtain rfl : d = 0 := by omega
    rw [decimalDigits_eq_of_head?_eq_zero hd]
    rfl
  case value =>
    simp only [List.foldl_map, Nat.add_sub_cancel_left]
    exact foldl_decimalDigits hv

end Sys2Proof.Machine

/-! SUPPORT. The reset state, the loader's pokes and the first tick: what each leaves, and the statements of
20_memory.md, 40_cycle.md, 60_exceptions.md and 70_reset_and_hazards.md on them. -/

namespace Sys2Proof.Machine

/-! ### The loader's pokes (20_memory.md R57) -/

/-- Before the first tick a poke into the 256 cells is one store. -/
theorem poke_of_not_clockStarted {s : State} (h : s.clockStarted = false) (a v : Byte) :
    poke a.toNat v s = .next (s.store a v) := by
  rw [poke, h, if_neg Bool.false_ne_true, s.memWrite_of_le v (Nat.le_of_lt_succ a.isLt)]
  rfl

theorem poke_of_clockStarted {s : State} (h : s.clockStarted = true) (a : Nat) (v : Byte) :
    poke a v s = .refused .pokeAfterFirstTick := by
  rw [poke, h, if_pos rfl]

/-- An accepted poke comes before the first tick and writes one cell. -/
theorem poke_eq_next {s t : State} {a : Nat} {v : Byte} (h : poke a v s = .next t) :
    s.clockStarted = false ∧ a ≤ 255 ∧ t = { s with mem := s.mem.write a v } := by
  cases hc : s.clockStarted with
  | true => rw [poke_of_clockStarted hc] at h; cases h
  | false =>
    rw [poke, hc, if_neg Bool.false_ne_true] at h
    by_cases ha : a ≤ 255
    · rw [s.memWrite_of_le v ha] at h; cases h; exact ⟨rfl, ha, by rw [hc]⟩
    · rw [s.memWrite_of_gt v (Nat.not_le.1 ha)] at h; cases h

/-- Pokes before the first tick are stores in order, and change memory alone. -/
theorem hostRun_pokes (opc : OpcodeMap) (pokes : List (Byte × Byte)) {s : State} (h : s.clockStarted = false) :
    ∃ m, hostRun opc (pokes.map fun c => .poke c.1.toNat c.2) s = .next { s with mem := m } ∧
      ∀ a, m.read a = pokedByte s.mem (pokes.map fun c => (c.1.toNat, c.2)) a := by
  induction pokes generalizing s with
  | nil => exact ⟨s.mem, rfl, fun _ => rfl⟩
  | cons c pokes ih =>
    obtain ⟨m, hrun, hread⟩ := ih (s := s.store c.1 c.2) h
    have hpoke : hostAct opc (.poke c.1.toNat c.2) s = .next (s.store c.1 c.2) := poke_of_not_clockStarted h c.1 c.2
    refine ⟨m, (hostRun_cons_next hpoke _).trans hrun, fun a => (hread a).trans ?_⟩
    have hfirst : (s.store c.1 c.2).mem.read a = if c.1.toNat = a then c.2 else s.mem.read a :=
      Memory.read_write ..
    rw [pokedByte, hfirst]
    rfl

/-! ### The tick -/

theorem exists_tick_eq_next (opc : OpcodeMap) (s : State) : ∃ t, tick opc s = .next t := by
  rcases tick_cases opc s with ⟨_, _, h⟩ | ⟨_, _, h⟩ | ⟨_, _, _, _, h⟩ | ⟨_, _, i, _, _, h⟩
  · exact ⟨_, h⟩
  · exact ⟨_, h⟩
  · exact ⟨_, h⟩
  · exact ⟨_, h.trans (exec_eq_next i _)⟩

@[simp] theorem State.afterInstr_clockStarted (s : State) (i : Instr) :
    (s.afterInstr i).clockStarted = s.clockStarted := by
  cases i with
  | call a =>
    rw [State.afterInstr]
    split <;> rfl
  | iret => exact s.restoreContext_clockStarted
  | _ => rfl

/-- A tick of a Running machine ends the loader's phase, whatever it does. -/
theorem clockStarted_of_tick {opc : OpcodeMap} {s t : State} (hr : s.run = .running) (h : tick opc s = .next t) :
    t.clockStarted = true := by
  rcases tick_cases opc s with ⟨_, hr', _⟩ | ⟨_, _, ht⟩ | ⟨_, _, _, _, ht⟩ | ⟨_, _, i, _, _, ht⟩
  · rw [hr] at hr'; cases hr'
  · rw [ht] at h; cases h; rfl
  · rw [ht] at h; cases h; exact s.beginCycle_clockStarted
  · obtain rfl := exec_eq_next_iff.1 (ht ▸ h)
    rw [State.afterInstr_clockStarted, State.beginCycle_clockStarted]

/-! ### The statements -/

/-- Settles O1: the pokes change memory alone, where each address holds the last byte poked into it. -/
theorem constructionAndPokesLeaveTheResetState : Obligations.ConstructionAndPokesLeaveTheResetState := by
  intro opc p pokes
  obtain ⟨m, hrun, hread⟩ := hostRun_pokes opc pokes (s := State.resetWith p) rfl
  exact ⟨_, hrun, rfl, rfl, rfl, rfl, rfl, rfl, rfl, rfl, rfl, rfl, rfl, rfl, rfl, rfl, rfl, fun a => hread a.toNat⟩

/-- Settles O3: at reset the enables are set, so the controller takes the lowest line of IS & IM, if there is one. -/
theorem firstTickDeliversWhenResetMaskMeetsStatus : Obligations.FirstTickDeliversWhenResetMaskMeetsStatus := by
  intro p
  have hpending : { State.resetWith p with clockStarted := true }.pendingLine = lowestLine (p.is &&& p.im) :=
    State.pendingLine_of_enabled rfl
  refine ⟨fun hmeet => ?delivers, fun hnone => ?fetches⟩
  case delivers =>
    obtain ⟨i, hi⟩ := Option.ne_none_iff_exists'.1 (mt lowestLine_eq_none_iff.1 hmeet)
    obtain ⟨hset, hlowest⟩ := lowestLine_eq_some_iff.1 hi
    refine ⟨i, hset, fun j hj => Bool.eq_false_iff.2 (hlowest j hj), ?_⟩
    rw [State.beginCycle, State.interruptControllerStep_of_some (hpending.trans hi)]
  case fetches =>
    rw [State.beginCycle, State.interruptControllerStep_of_none (hpending.trans (lowestLine_eq_none_iff.2 hnone))]
    rfl

/-- Settles O18: decoding looks at PC and memory, which the fetch leaves as the controller's step made them. -/
theorem stepRunsTheDecodedInstruction : Obligations.StepRunsTheDecodedInstruction := by
  intro opc s i rest hr hp hd
  rw [← State.instrBytes_congr s.beginCycle_pc s.beginCycle_mem] at hd
  rw [tick_of_decode_ok hr hp hd, State.beginCycle_eq]

/-- Settles O21: each of the four outcomes of a tick is a next state. -/
theorem everyTickAnswersANextState : Obligations.EveryTickAnswersANextState := exists_tick_eq_next

/-- Settles O22: halting is one record update, and the codes are read off their table. -/
theorem haltingRecordsTheReasonOnly : Obligations.HaltingRecordsTheReasonOnly :=
  fun _ _ _ _ _ => ⟨rfl, rfl, rfl, rfl, rfl⟩

/-- Settles O53: a poke is one store, and every tick of a Running machine sets `clockStarted`. -/
theorem pokesAreAcceptedOnlyBeforeTheFirstTick : Obligations.PokesAreAcceptedOnlyBeforeTheFirstTick := by
  refine fun opc s a v => ⟨fun h => ?_, fun h => poke_of_clockStarted h _ v, fun hr => ?_⟩
  · exact ⟨_, poke_of_not_clockStarted h a v, rfl, s.load_store_same a v, s.onlyCellsChange_store a v⟩
  · obtain ⟨t, ht⟩ := exists_tick_eq_next opc s
    exact ⟨t, ht, clockStarted_of_tick hr ht⟩

end Sys2Proof.Machine

/-! SUPPORT. The invariant: what the operand fetch's first fault can be, that every fault of a tick leaves a true
report, and that every tick and every action of the host keeps the invariant. -/

namespace Sys2Proof.Machine

/-! ### The first fault of a tick leaves a true report (40_cycle.md R96, R101) -/

/-- The operand fetch runs past the last address, by one, or meets a register byte above 7. -/
theorem State.operandFault_cases {s : State} {j : Nat} {ks : List OperandKind} {r : HaltReason}
    (hp : s.pc + j ≤ 256) (h : s.operandFault j ks = some r) :
    (r = .addressOutOfRange 256 ∧ 256 < s.pc + j + ks.length) ∨
      ∃ k : Byte, r = .invalidRegister s.pc (s.mem.read s.pc) k ∧ 7 < k.toNat ∧ .register ∈ ks := by
  induction ks generalizing j with
  | nil => cases h
  | cons k ks ih =>
    rw [State.operandFault] at h
    split at h
    · cases h
      exact .inl ⟨by rw [show s.pc + j = 256 by omega], by rw [List.length_cons]; omega⟩
    · split at h
      · next hk =>
        cases h
        exact .inr ⟨_, rfl, hk.2, List.mem_cons.2 (.inl hk.1.symm)⟩
      · rcases ih (j := j + 1) (by omega) h with ⟨hr, hlen⟩ | ⟨k, hr, hk, hmem⟩
        · exact .inl ⟨hr, by rw [List.length_cons]; omega⟩
        · exact .inr ⟨k, hr, hk, List.mem_cons_of_mem _ hmem⟩

theorem length_operandKinds_le (m : Mnemonic) : m.operandKinds.length ≤ 2 := by cases m <;> decide

/-- An operand fetch without a fault has found every operand byte. -/
theorem State.pc_add_length_le_of_operandFault {s : State} {j : Nat} {ks : List OperandKind} (hp : s.pc + j ≤ 256)
    (h : s.operandFault j ks = none) : s.pc + j + ks.length ≤ 256 := by
  induction ks generalizing j with
  | nil => exact hp
  | cons k ks ih =>
    rw [State.operandFault] at h
    split at h
    · cases h
    · split at h
      · cases h
      · have := ih (j := j + 1) (by omega) h
        rw [List.length_cons]; omega

/-- Checks 4 to 7: the report of the one that fails first is true. -/
theorem State.reportTrue_halt_of_instructionFault {opc : OpcodeMap} {s : State} {r : HaltReason} (hp : s.pc ≤ 255)
    (hir : s.ir = s.mem.read s.pc) (h : s.instructionFault opc = some r) : (s.halt r).ReportTrue opc := by
  have hj : s.pc + 1 ≤ 256 := by omega
  rw [State.instructionFault] at h
  split at h
  · next hm => cases h; exact ⟨rfl, hp, hir.symm, dispatch_none hm⟩
  · next m hm =>
    split at h
    · next hf =>
      cases h
      rcases State.operandFault_cases hj hf with ⟨rfl, hlen⟩ | ⟨k, rfl, hk, hmem⟩
      · have := length_operandKinds_le m
        exact ⟨rfl, by rw [State.halt_pc]; omega⟩
      · exact ⟨rfl, hp, hir.symm, hk, m, opc_of_dispatch hm, hmem⟩
    · next hf =>
      split at h
      · next hcall =>
        obtain ⟨rfl, hret⟩ := hcall
        cases h
        have hlen : s.pc + 1 + 1 ≤ 256 := State.pc_add_length_le_of_operandFault hj hf
        exact ⟨by omega, by rw [State.halt_pc]; omega⟩
      · cases h

/-! ### What an executed instruction leaves -/

/-- The bytes that the decoder sees end with the address space. -/
theorem State.pc_add_length_instrBytes_le {s : State} (hp : s.pc ≤ 255) : s.pc + s.instrBytes.length ≤ 256 := by
  rw [s.instrBytes_eq hp]
  split
  · exact Nat.succ_le_succ hp
  · split <;> simp only [List.length_cons, List.length_nil] <;> omega

/-- A decoded instruction ends within the address space (40_cycle.md R96). -/
theorem State.pc_add_width_le {opc : OpcodeMap} {s : State} {i : Instr} {rest : List Byte} (hp : s.pc ≤ 255)
    (hd : decodeWith opc s.instrBytes = .ok (i, rest)) : s.pc + i.width ≤ 256 := by
  have hle := State.pc_add_length_instrBytes_le hp
  rw [eq_encodeWith_of_decodeWith hd, List.length_append, length_encodeWith] at hle
  omega

theorem State.afterInstr_pc_le {opc : OpcodeMap} {s : State} {i : Instr} {rest : List Byte} (hp : s.pc ≤ 255)
    (hd : decodeWith opc s.instrBytes = .ok (i, rest)) : (s.afterInstr i).pc ≤ 256 := by
  rcases s.afterInstr_pc_le_or_advance i hp with hle | heq
  · omega
  · exact heq ▸ State.pc_add_width_le hp hd

theorem State.afterInstr_wf (s : State) (i : Instr) (h : s.mem.wf) : (s.afterInstr i).mem.wf := by
  cases i with
  | push a => exact s.pushReg_wf a h
  | call a =>
    rw [State.afterInstr]
    split
    · exact h
    · exact State.push_wf s (fun _ => BitVec.ofNat 8 (s.pc + 2)) h
  | st a b => exact s.store_wf _ _ h
  | iret => rw [State.afterInstr, State.restoreContext_mem]; exact h
  | _ => exact h

theorem State.reportTrue_of_running (opc : OpcodeMap) {s : State} (h : s.run = .running) : s.ReportTrue opc := by
  rw [State.ReportTrue, h]
  trivial

/-- An executed instruction leaves a true report: it goes on, is HLT, or is a CALL that fails check 7. -/
theorem State.afterInstr_reportTrue {opc : OpcodeMap} {s : State} {i : Instr} {rest : List Byte} (hr : s.run = .running)
    (hp : s.pc ≤ 255) (hir : s.ir = s.mem.read s.pc) (hd : decodeWith opc s.instrBytes = .ok (i, rest)) :
    (s.afterInstr i).ReportTrue opc := by
  have hrun := s.afterInstr_run i
  have hop := opc_of_dispatch (State.dispatch_of_decodeWith hp hd)
  cases i with
  | call a =>
    rw [State.afterInstr]
    split
    · next hgt =>
      refine State.reportTrue_halt_of_instructionFault hp hir ?_
      rw [State.instructionFault_of_ok hp hir hd, if_pos ⟨rfl, hgt⟩]
    · exact State.reportTrue_of_running opc hr
  | hlt => exact hir.trans hop.symm
  | _ => exact State.reportTrue_of_running opc (hrun.trans hr)

/-! ### Every tick and every action of the host keeps the invariant -/

theorem State.resetWith_inv (opc : OpcodeMap) {p : ResetParams} (h : Memory.wf p.mem) :
    (State.resetWith p).Inv opc where
  pc_le := Nat.zero_le _
  mem_wf := h
  report := trivial
  fresh _ := ⟨rfl, rfl, rfl⟩

/-- Once the clock has started nothing is claimed of a fresh machine. -/
theorem State.inv_of_clockStarted {opc : OpcodeMap} {s : State} (hc : s.clockStarted = true) (hp : s.pc ≤ 256)
    (hm : s.mem.wf) (hr : s.ReportTrue opc) : s.Inv opc where
  pc_le := hp
  mem_wf := hm
  report := hr
  fresh h := absurd (hc.symm.trans h) (by decide)

theorem State.beginCycle_wf {s : State} (h : s.mem.wf) : s.beginCycle.mem.wf :=
  s.beginCycle_mem ▸ s.interruptControllerStep_wf h

theorem State.Inv.tick {opc : OpcodeMap} {s t : State} (h : s.Inv opc) (ht : tick opc s = .next t) : t.Inv opc := by
  rcases tick_cases opc s with ⟨_, _, heq⟩ | ⟨hr, hp, heq⟩ | ⟨hr, hp, e, hd, heq⟩ | ⟨hr, hp, i, rest, hd, heq⟩
  · rw [heq] at ht; cases ht; exact h
  · have hclock := clockStarted_of_tick hr ht
    have hpc : s.pc = 256 := Nat.le_antisymm h.pc_le hp
    rw [heq] at ht; cases ht
    exact State.inv_of_clockStarted hclock h.pc_le h.mem_wf ⟨hpc, hpc ▸ by decide⟩
  · have hclock := clockStarted_of_tick hr ht
    have hb := s.beginCycle_pc_le hp
    have hfault := State.instructionFault_of_error hb s.beginCycle_ir_eq_read hd
    rw [heq] at ht; cases ht
    exact State.inv_of_clockStarted hclock (hb.trans (by decide)) (State.beginCycle_wf h.mem_wf)
      (State.reportTrue_halt_of_instructionFault hb s.beginCycle_ir_eq_read hfault)
  · have hclock := clockStarted_of_tick hr ht
    have hb := s.beginCycle_pc_le hp
    obtain rfl := exec_eq_next_iff.1 (heq ▸ ht)
    exact State.inv_of_clockStarted hclock (State.afterInstr_pc_le hb hd)
      (State.afterInstr_wf _ i (State.beginCycle_wf h.mem_wf))
      (State.afterInstr_reportTrue (s.beginCycle_run.trans hr) hb s.beginCycle_ir_eq_read hd)

theorem State.Inv.poke {opc : OpcodeMap} {s t : State} (h : s.Inv opc) {a : Nat} {v : Byte}
    (ht : poke a v s = .next t) : t.Inv opc := by
  obtain ⟨_, ha, rfl⟩ := poke_eq_next ht
  exact ⟨h.pc_le, s.mem.wf_write a v h.mem_wf (Nat.lt_succ_of_le ha), h.report, h.fresh⟩

theorem State.Inv.raiseInterrupt {opc : OpcodeMap} {s t : State} (h : s.Inv opc) {n : Nat}
    (ht : raiseInterrupt n s = .next t) : t.Inv opc := by
  by_cases hn : n < 8
  · cases hr : s.run with
    | halted r => rw [raiseInterrupt_of_halted hr hn] at ht; cases ht; exact h
    | running =>
      rw [raiseInterrupt_of_running hr ⟨n, hn⟩] at ht
      cases ht
      exact ⟨h.pc_le, h.mem_wf, h.report, h.fresh⟩
  · rw [raiseInterrupt_of_gt (Nat.not_lt.1 hn)] at ht; cases ht

theorem State.Inv.hostAct {opc : OpcodeMap} {s t : State} (h : s.Inv opc) {act : HostAction}
    (ht : hostAct opc act s = .next t) : t.Inv opc := by
  cases act with
  | poke a v => exact h.poke ht
  | tick => exact h.tick ht
  | raiseInterrupt n => exact h.raiseInterrupt ht
  | timer => exact h.raiseInterrupt (n := 1) ht

/-- A run that is not refused has taken its first action. -/
theorem hostRun_cons_eq_next {opc : OpcodeMap} {act : HostAction} {acts : List HostAction} {s u : State}
    (h : hostRun opc (act :: acts) s = .next u) : ∃ t, hostAct opc act s = .next t ∧ hostRun opc acts t = .next u := by
  cases ht : hostAct opc act s with
  | next t => exact ⟨t, rfl, hostRun_cons_next ht acts ▸ h⟩
  | fault r => cases r
  | refused r => rw [hostRun, ht] at h; cases h

/-! ### The statements -/

/-- Settles O2: construction leaves PC at 0, the clock stopped and the given memory, and the empty one is canonical. -/
theorem constructionMeetsTheInvariant : Obligations.ConstructionMeetsTheInvariant :=
  ⟨fun opc _ => State.resetWith_inv opc, fun opc => State.resetWith_inv opc Memory.wf_reset⟩

/-- Settles O55: PC by the width of what was decoded, memory by each store, the report by the order of the checks. -/
theorem everyTickKeepsTheInvariant : Obligations.EveryTickKeepsTheInvariant :=
  fun _ _ _ _ h ht => h.tick ht

/-- Settles O56, by induction on the host's actions, each of which keeps the invariant. -/
theorem everyHostRunKeepsTheInvariant : Obligations.EveryHostRunKeepsTheInvariant := by
  intro opc _ acts
  induction acts with
  | nil => intro s t h ht; cases ht; exact h
  | cons act acts ih =>
    intro s t h ht
    obtain ⟨u, hact, hacts⟩ := hostRun_cons_eq_next ht
    exact ih u t (h.hostAct hact) hacts

end Sys2Proof.Machine

/-! SUPPORT. The placing of a table word: the fetch sees the stored bytes as far as the address space reaches, no
delivery stands in the way, and the statement of 40_cycle.md on a placed word. -/

namespace Sys2Proof

/-! ### The word and its instruction (30_encoding.md R73, R80) -/

theorem length_wordBytes (n w : Nat) : (wordBytes n w).length = n := by
  induction n generalizing w with
  | zero => rfl
  | succ n ih => rw [wordBytes, List.length_cons, ih]

theorem decode_of_decodeTableWord {nbits w : Nat} {i : Instr} (h : decodeTableWord nbits w = some i) :
    ∃ rest, decode (tableBytes nbits w) = .ok (i, rest) := by
  unfold decodeTableWord at h
  split at h
  · next rest hd => cases h; exact ⟨rest, hd⟩
  · cases h

theorem Mnemonic.width_pos (m : Mnemonic) : 0 < m.width := by cases m <;> decide

theorem Mnemonic.width_le (m : Mnemonic) : m.width ≤ 256 := by cases m <;> decide

namespace Machine

theorem headWidth_of_decode {bs rest : List Byte} {i : Instr} (h : decode bs = .ok (i, rest)) :
    headWidth bs = i.width := by
  rw [eq_encodeWith_of_decodeWith h, encodeWith, List.cons_append, headWidth, dispatch_opcDefault]
  rfl

/-! ### Stored bytes -/

/-- Storing bytes changes memory alone. -/
theorem State.storeBytes_eq (s : State) (a : Nat) (bs : List Byte) :
    s.storeBytes a bs = { s with mem := (s.storeBytes a bs).mem } := by
  induction bs generalizing s a with
  | nil => rfl
  | cons b bs ih =>
    rw [State.storeBytes]
    split
    · exact ih s (a + 1)
    · exact ih _ (a + 1)

@[simp] theorem State.storeBytes_pc (s : State) (a : Nat) (bs : List Byte) : (s.storeBytes a bs).pc = s.pc := by
  rw [s.storeBytes_eq]

@[simp] theorem State.storeBytes_regs (s : State) (a : Nat) (bs : List Byte) : (s.storeBytes a bs).regs = s.regs := by
  rw [s.storeBytes_eq]

@[simp] theorem State.storeBytes_run (s : State) (a : Nat) (bs : List Byte) : (s.storeBytes a bs).run = s.run := by
  rw [s.storeBytes_eq]

@[simp] theorem State.storeBytes_out (s : State) (a : Nat) (bs : List Byte) : (s.storeBytes a bs).out = s.out := by
  rw [s.storeBytes_eq]

@[simp] theorem State.storeBytes_pendingLine (s : State) (a : Nat) (bs : List Byte) :
    (s.storeBytes a bs).pendingLine = s.pendingLine := by
  rw [s.storeBytes_eq]
  rfl

/-- Bytes are stored upwards. -/
theorem State.read_storeBytes_of_lt (s : State) {a b : Nat} (h : b < a) (bs : List Byte) :
    (s.storeBytes a bs).mem.read b = s.mem.read b := by
  induction bs generalizing s a with
  | nil => rfl
  | cons v bs ih =>
    rw [State.storeBytes, ih _ (Nat.lt_succ_of_lt h)]
    split
    · rfl
    · rw [Memory.read_write, if_neg h.ne']

/-- Bytes stored from an offset after PC are there as far as the address space reaches. -/
theorem State.bytesAt_storeBytes (s : State) (j : Nat) (bs : List Byte) :
    (s.storeBytes (s.pc + j) bs).bytesAt j bs.length = bs.take (256 - (s.pc + j)) := by
  induction bs generalizing s j with
  | nil => exact List.take_nil.symm
  | cons b bs ih =>
    rw [List.length_cons, State.bytesAt, State.storeBytes_pc]
    split
    · rw [Nat.sub_eq_zero_of_le ‹_›]; rfl
    · next hj =>
      have hbound : 256 - (s.pc + j) = 256 - (s.pc + j + 1) + 1 := by omega
      rw [hbound, List.take_succ_cons, State.storeBytes, if_neg hj, State.read_storeBytes_of_lt _ (Nat.lt_succ_self _),
        Memory.read_write, if_pos rfl]
      exact congrArg (b :: ·) (ih { s with mem := s.mem.write (s.pc + j) b } (j + 1))

theorem State.instrBytes_eq_bytesAt {s : State} (hp : s.pc ≤ 255) : s.instrBytes = s.bytesAt 0 3 :=
  (s.instrBytes_eq_cons hp).trans (if_neg (Nat.not_lt.2 hp)).symm

theorem State.instrBytes_storeBytes {s : State} (hp : s.pc ≤ 255) {bs : List Byte} (hlen : bs.length = 3) :
    (s.storeBytes s.pc bs).instrBytes = bs.take (256 - s.pc) := by
  rw [State.instrBytes_eq_bytesAt (by rwa [State.storeBytes_pc]), ← hlen]
  exact s.bytesAt_storeBytes 0 bs

/-- The decoder reads a stored instruction that ends within the address space, whatever the bytes after it are. -/
theorem State.decode_storeBytes {s : State} {bs rest : List Byte} {i : Instr} (hp : s.pc ≤ 255)
    (hlen : bs.length = 3) (hd : decode bs = .ok (i, rest)) (hend : s.pc + i.width ≤ 256) :
    ∃ rest', decode (s.storeBytes s.pc bs).instrBytes = .ok (i, rest') := by
  have hfits : (encodeWith opcDefault i).length ≤ 256 - s.pc := by rw [length_encodeWith]; omega
  rw [State.instrBytes_storeBytes hp hlen, eq_encodeWith_of_decodeWith hd, List.take_append,
    List.take_of_length_le hfits]
  exact ⟨_, decodeWith_encodeWith opcDefault_admissible i _⟩

/-! ### The machine made ready (log entry 10) -/

theorem State.readyToFetch_pc_le (s : State) {n : Nat} (hn : n ≤ 256) : (s.readyToFetch n).pc + n ≤ 256 := by
  simp only [State.readyToFetch]
  split <;> omega

theorem State.readyToFetch_pendingLine (s : State) (n : Nat) : (s.readyToFetch n).pendingLine = none := by
  by_cases h : s.pendingLine = none
  · have heq : (s.readyToFetch n).pendingLine = s.pendingLine := by
      simp only [State.readyToFetch, if_pos h]
      rfl
    rw [heq, h]
  · exact State.pendingLine_of_disabled (if_neg h)

/-- With no delivery in the way, a step executes the instruction at PC, with its opcode in IR. -/
theorem step_of_pendingLine_eq_none {s : State} {i : Instr} {rest : List Byte} (hr : s.run = .running)
    (hp : s.pc ≤ 255) (hline : s.pendingLine = none) (hd : decode s.instrBytes = .ok (i, rest)) :
    step s = exec i { s with ir := opcDefault i.mnemonic, clockStarted := true } := by
  have hidle := State.interruptControllerStep_of_none hline
  have hop := opc_of_dispatch (State.dispatch_of_decodeWith hp hd)
  have hstep := stepRunsTheDecodedInstruction opcDefault s i rest hr hp
  rw [hidle] at hstep
  rw [step, hstep hd, hop]

/-! ### The statement on a placed word -/

/-- Settles O23: the placed bytes begin with the encoding of their instruction, which lies within the address space. -/
theorem placedInstructionIsTheNextToRun : Obligations.PlacedInstructionIsTheNextToRun := by
  intro s nbits w i hi
  obtain ⟨rest, hd⟩ := decode_of_decodeTableWord hi
  have hplaced : s.withFetchWord nbits w =
      (s.readyToFetch i.width).storeBytes (s.readyToFetch i.width).pc (tableBytes nbits w) := by
    rw [State.withFetchWord, State.placeInstruction, headWidth_of_decode hd]
  have hend : (s.readyToFetch i.width).pc + i.width ≤ 256 := s.readyToFetch_pc_le i.mnemonic.width_le
  have hp : (s.readyToFetch i.width).pc ≤ 255 :=
    Nat.le_of_lt_succ ((Nat.lt_add_of_pos_right i.mnemonic.width_pos).trans_le hend)
  obtain ⟨_, hdecode⟩ := State.decode_storeBytes hp (length_wordBytes 3 _) hd hend
  rw [hplaced]
  refine ⟨State.storeBytes_regs .., State.storeBytes_out .., step_of_pendingLine_eq_none ?run ?pc ?line hdecode⟩
  case run => rw [State.storeBytes_run]; rfl
  case pc => rwa [State.storeBytes_pc]
  case line => rw [State.storeBytes_pendingLine, State.readyToFetch_pendingLine]

end Machine
end Sys2Proof

/-! SUPPORT. Assembler text: what each reader makes of what the printer writes, and the statement of 30_encoding.md on
reading it back. -/

namespace Sys2Proof.Machine

/-! ### Pieces between separators -/

theorem splitAt_ne_nil (sep : Char) (cs : List Char) : splitAt sep cs ≠ [] := by
  cases cs with
  | nil => exact List.cons_ne_nil _ _
  | cons c cs =>
    rw [splitAt]
    split
    · exact List.cons_ne_nil _ _
    · split <;> exact List.cons_ne_nil _ _

theorem splitAt_cons_self (sep : Char) (cs : List Char) : splitAt sep (sep :: cs) = [] :: splitAt sep cs := by
  rw [splitAt]
  split
  · next h => exact absurd h (splitAt_ne_nil sep cs)
  · next h => rw [if_pos rfl, h]

theorem splitAt_cons_of_ne {sep c : Char} {cs t : List Char} {ts : List (List Char)} (hc : c ≠ sep)
    (h : splitAt sep cs = t :: ts) : splitAt sep (c :: cs) = (c :: t) :: ts := by
  rw [splitAt, h]
  exact if_neg hc

theorem splitAt_of_notMem {sep : Char} {t : List Char} (h : sep ∉ t) : splitAt sep t = [t] := by
  induction t with
  | nil => rfl
  | cons c t ih =>
    obtain ⟨hc, ht⟩ := not_or.1 (mt List.mem_cons.2 h)
    exact splitAt_cons_of_ne (Ne.symm hc) (ih ht)

theorem splitAt_append_sep {sep : Char} {t : List Char} (h : sep ∉ t) (cs : List Char) :
    splitAt sep (t ++ sep :: cs) = t :: splitAt sep cs := by
  induction t with
  | nil => exact splitAt_cons_self sep cs
  | cons c t ih =>
    obtain ⟨hc, ht⟩ := not_or.1 (mt List.mem_cons.2 h)
    exact splitAt_cons_of_ne (Ne.symm hc) (ih ht)

theorem splitAt_commaSeparated {ts : List (List Char)} (hne : ts ≠ []) (h : ∀ t ∈ ts, ',' ∉ t) :
    splitAt ',' (commaSeparated ts) = ts := by
  induction ts with
  | nil => exact absurd rfl hne
  | cons t ts ih =>
    obtain ⟨ht, hts⟩ := List.forall_mem_cons.1 h
    cases ts with
    | nil => exact splitAt_of_notMem ht
    | cons u us => rw [commaSeparated, splitAt_append_sep ht, ih (List.cons_ne_nil _ _) hts]; exact List.cons_ne_nil _ _

/-! ### One operand -/

/-- A decimal digit as written is read as that digit, and is no separator and no mark of a base. -/
theorem digitChars_getD_of_lt_ten (d : Nat) (h : d < 10) : digitValue 10 (digitChars.getD d '?') = some d ∧
    digitChars.getD d '?' ∉ [',', ' ', 'x'] := by
  interval_cases d <;> exact ⟨rfl, by decide⟩

/-- A register as written is read as its byte, and holds no separator. -/
theorem operandText_register (r : Reg) : operandByte .register (operandText .register r.toByte) = some r.toByte ∧
    ',' ∉ operandText .register r.toByte ∧ ' ' ∉ operandText .register r.toByte := by
  cases r <;> exact ⟨rfl, by decide, by decide⟩

/-- Written decimal digits are read as the number they are of, where it fits a byte. -/
theorem numberValue_digitChars (ds : List Nat) (acc : Nat) (h : ∀ d ∈ ds, d < 10) :
    numberValue 10 acc (ds.map fun d => digitChars.getD d '?') =
      numberValue 10 (ds.foldl (fun acc d => 10 * acc + d) acc) [] := by
  induction ds generalizing acc with
  | nil => rfl
  | cons d ds ih =>
    obtain ⟨hd, hds⟩ := List.forall_mem_cons.1 h
    rw [List.map_cons, List.foldl_cons, ← ih _ hds, numberValue]
    simp only [(digitChars_getD_of_lt_ten d hd).1, Nat.mul_comm 10]

/-- A text that has no mark of a base is read in base ten. -/
theorem operandByte_immediate_of_notMem {cs : List Char} (hne : cs ≠ []) (hx : 'x' ∉ cs) :
    operandByte .immediate cs = numberValue 10 0 cs := by
  unfold operandByte
  split <;> simp_all

theorem operandText_immediate (b : Byte) : operandByte .immediate (operandText .immediate b) = some b ∧
    ∀ c ∈ operandText .immediate b, c ∉ [',', ' ', 'x'] := by
  have hlt : b.toNat < 1000 := b.isLt.trans (by decide)
  have hdigit (d : Nat) (hd : d ∈ decimalDigits b.toNat) := lt_ten_of_mem_decimalDigits hlt hd
  have hchars : ∀ c ∈ operandText .immediate b, c ∉ [',', ' ', 'x'] :=
    List.forall_mem_map.2 fun d hd => (digitChars_getD_of_lt_ten d (hdigit d hd)).2
  refine ⟨?_, hchars⟩
  have hne : operandText .immediate b ≠ [] := mt List.map_eq_nil_iff.1 (decimalDigits_ne_nil _)
  calc operandByte .immediate (operandText .immediate b)
    _ = numberValue 10 0 (operandText .immediate b) :=
      operandByte_immediate_of_notMem hne fun hx => hchars 'x' hx (by decide)
    _ = numberValue 10 b.toNat [] := by
      rw [operandText, numberValue_digitChars _ _ hdigit, foldl_decimalDigits hlt]
    _ = some b := by
      rw [numberValue, if_pos b.isLt, BitVec.ofNat_toNat, BitVec.setWidth_eq]

/-- An operand byte that its kind admits is read back from its text, which holds no separator. -/
theorem operandText_of_admits {k : OperandKind} {b : Byte} (h : k.admits b = true) :
    operandByte k (operandText k b) = some b ∧ ',' ∉ operandText k b ∧ ' ' ∉ operandText k b := by
  cases k with
  | register =>
    obtain ⟨r, rfl⟩ := exists_toByte_of_admits_register h
    exact operandText_register r
  | immediate =>
    obtain ⟨hread, hchars⟩ := operandText_immediate b
    exact ⟨hread, fun hc => hchars _ hc (by decide), fun hc => hchars _ hc (by decide)⟩

theorem dropWhile_space_of_notMem {t : List Char} (h : ' ' ∉ t) : t.dropWhile (· = ' ') = t := by
  cases t with
  | nil => rfl
  | cons c t => exact List.dropWhile_cons_of_neg (by simpa using (List.ne_of_not_mem_cons h).symm)

/-! ### All operands -/

/-- Well-formed operand bytes are read back from their texts, none of which holds a comma. -/
theorem operandBytesOf_zipWith {ks : List OperandKind} {bs : List Byte} (h : operandsWellFormed ks bs = true) :
    operandBytesOf ks (List.zipWith operandText ks bs) = some bs ∧
      ∀ t ∈ List.zipWith operandText ks bs, ',' ∉ t := by
  induction ks generalizing bs with
  | nil =>
    obtain rfl := operandsWellFormed_nil h
    exact ⟨rfl, nofun⟩
  | cons k ks ih =>
    obtain ⟨b, bs, rfl, hb, hbs⟩ := operandsWellFormed_cons h
    obtain ⟨hread, hcomma, hspace⟩ := operandText_of_admits hb
    obtain ⟨hreads, hcommas⟩ := ih hbs
    refine ⟨?_, List.forall_mem_cons.2 ⟨hcomma, hcommas⟩⟩
    rw [List.zipWith_cons_cons, operandBytesOf, dropWhile_space_of_notMem hspace, hread, hreads]

/-- The text after an instruction's name (`instrText_eq`). -/
def operandsText : List (List Char) → List Char
  | [] => []
  | t :: ts => ' ' :: commaSeparated (t :: ts)

theorem instrText_eq (i : Instr) : instrText i =
    mnemonicText i.mnemonic ++ operandsText (List.zipWith operandText i.mnemonic.operandKinds i.operandBytes) := by
  rw [instrText]
  cases List.zipWith operandText i.mnemonic.operandKinds i.operandBytes <;> rfl

theorem operandTexts_operandsText {ts : List (List Char)} (h : ∀ t ∈ ts, ',' ∉ t) :
    operandTexts (operandsText ts) = ts := by
  cases ts with
  | nil => rfl
  | cons t ts => exact splitAt_commaSeparated (List.cons_ne_nil t ts) h

/-! ### The name -/

theorem find?_mnemonicText (m : Mnemonic) :
    (Mnemonic.all.find? fun n => mnemonicText n = mnemonicText m) = some m := by
  cases m <;> rfl

theorem ne_space_of_mem_mnemonicText {m : Mnemonic} : ∀ c ∈ mnemonicText m, decide (c ≠ ' ') = true := by
  cases m <;> simp [mnemonicText]

theorem takeWhile_instrText (m : Mnemonic) (ts : List (List Char)) :
    (mnemonicText m ++ operandsText ts).takeWhile (· ≠ ' ') = mnemonicText m := by
  rw [List.takeWhile_append_of_pos ne_space_of_mem_mnemonicText]
  cases ts <;> exact List.append_nil _

theorem dropWhile_instrText (m : Mnemonic) (ts : List (List Char)) :
    (mnemonicText m ++ operandsText ts).dropWhile (· ≠ ' ') = operandsText ts := by
  rw [List.dropWhile_append_of_pos ne_space_of_mem_mnemonicText]
  cases ts <;> rfl

/-! ### The statement of 30_encoding.md on assembler text -/

/-- Settles O14: the name is read up to the first space, the operand bytes from the pieces between the commas, and the
operand readers give the instruction back from them. -/
theorem assemblerNotationReadsBack : Obligations.AssemblerNotationReadsBack := by
  intro i
  obtain ⟨hbytes, hcommas⟩ := operandBytesOf_zipWith i.operandsWellFormed_operandBytes
  have hoperands : decodeOperands i.mnemonic i.operandBytes = .ok (i, []) := by
    simpa using decodeOperands_operandBytes i []
  rw [instrText_eq, readInstr, takeWhile_instrText, find?_mnemonicText]
  simp only [dropWhile_instrText, operandTexts_operandsText hcommas, hbytes, hoperands]

end Sys2Proof.Machine
